-- ==== Sys2Proof/Word.lean ====
section
/-! DEFINITION. The word types of the block: one bit, one hash half, one command word. -/

namespace Sys2Proof

/-- One bit (R8, R20): `true` is 1, `false` is 0. -/
abbrev Bit := Bool

/-- A hash half h1 or h2: 64 bits, unsigned (R8). -/
abbrev Half := BitVec 64

/-- The data of the command port as one 130-bit word of format CMD (R62). -/
abbrev CmdWord := BitVec 130

end Sys2Proof
end

