-- ==== Sys2Proof/Config.lean ====
section
/-! DEFINITION. The configuration record of one block instance (R5) and the free values of the model. -/

namespace Sys2Proof

/-- The parameter INDEX_ARITH: the arithmetic in which `h1 + i * h2` is formed (R5, R81, decision D3). -/
inductive IndexArith where
  /-- unbounded natural numbers: the formula as the source writes it, this spec's default -/
  | EXACT
  /-- 64-bit unsigned arithmetic that wraps -/
  | WRAP64
deriving DecidableEq, Repr

/-- The configuration of one block instance, fixed when the block is built (R5, R23). -/
structure Cfg where
  /-- capacity_bits: the number of bits in the bit array -/
  M : Nat
  /-- hash_count: the indices derived per element -/
  K : Nat
  /-- the arithmetic of the index formula -/
  indexArith : IndexArith
  /-- M_MAX, the largest M the implementation can build (OPEN, U9) -/
  mMax : Nat
  /-- LATENCY (OPEN, timing only, R146): no rule depends on it, and nothing in the model reads it -/
  latency : Nat
  /-- RSPQ_DEPTH, the CHECK responses the block can hold (OPEN, R147) -/
  rspqDepth : Nat
deriving DecidableEq, Repr

/-- The configuration `State.reset` is built with: M, K and INDEX_ARITH are the reference values of R5 and R6.
DESIGN CHOICE (log 1, unsafe for claims about `State.reset` alone): the spec leaves M_MAX, LATENCY and RSPQ_DEPTH open;
here they are the least legal M_MAX, 1 and 1. -/
def Cfg.reference : Cfg where
  M := 209715200
  K := 8
  indexArith := .EXACT
  mMax := 209715200
  latency := 1
  rspqDepth := 1

/-- FREE VALUE (R145, U7, log 4): which of the words a host presented is the one accepted, when it changed the word
before the accepting edge. The argument is the counter `State.draws`; the value is taken modulo the number of words. -/
opaque Config.drawnWord : Nat → Nat

/-- FREE VALUE (R145, D26, log 4): whether a handshake happened of a host that lowered `rsp_ready` or `cmd_valid` before the
edge that answers it. The argument is the counter `State.draws`. -/
opaque Config.drawnTake : Nat → Bool

/-- FREE VALUE (R8, R27, log 6): `fault_info` for an out-of-range index that does not fit in 64 bits, for which the spec
states no zero-extension. The argument is the counter `State.draws`. -/
opaque Config.wideFaultInfo : Nat → BitVec 64

end Sys2Proof
end

