-- ==== Sys2Proof/Machine/Widths.lean ====
section
/-! DEFINITION. What the configuration determines: the port widths IDX_W and IW (R5), and which configurations are legal (R7). -/

namespace Sys2Proof

/-- ⌈log2 n⌉ for n ≥ 1. -/
def ceilLog2 (n : Nat) : Nat :=
  if n ≤ 1 then 0 else Nat.log2 (n - 1) + 1

/-- IDX_W: the width of an index on every port (R5, R41). -/
def Cfg.idxW (c : Cfg) : Nat := max 1 (ceilLog2 c.M)

/-- IW: the width of the round number on the IG port (R5). -/
def Cfg.iw (c : Cfg) : Nat := max 1 (ceilLog2 c.K)

/-- A configuration is legal exactly when M ≥ 1, M ≤ M_MAX and K ≥ 1 (R7). -/
abbrev Cfg.Legal (c : Cfg) : Prop := 1 ≤ c.M ∧ c.M ≤ c.mMax ∧ 1 ≤ c.K

/-- The configurations of which a block exists: legal (R7), and the open parameter RSPQ_DEPTH in its
range (R5; DEDUCED, log 11, safe). -/
abbrev Cfg.Buildable (c : Cfg) : Prop := c.Legal ∧ 1 ≤ c.rspqDepth

end Sys2Proof
end

