-- ==== Sys2Proof/Syntax.lean ====
section
/-! DEFINITION. The operations of the block: one constructor per row of spec/opcode_table.json, and the ports their words arrive on. -/

namespace Sys2Proof

/-- The port a word arrives on. It alone gives the word's format (R68). -/
inductive Port where
  /-- the command port, format CMD (R60, R62) -/
  | cmd
  /-- the port of the bit array, format BA (R65) -/
  | ba
  /-- the port of the index generator, format IG (R66) -/
  | ig
deriving DecidableEq, Repr

/-- The two reserved op codes of format CMD (R63). -/
inductive ReservedOp where
  /-- op = 0b10 -/
  | op2
  /-- op = 0b11 -/
  | op3
deriving DecidableEq, Repr

/-- One operation with its operands. Every operand is a field taken whole as an unsigned number (R67). -/
inductive Instr where
  /-- `ADD h1, h2` (R101) -/
  | add (h1 h2 : Half)
  /-- `CHECK h1, h2` (R102) -/
  | check (h1 h2 : Half)
  /-- `.cmd op, h1, h2` with a reserved op code (R64, R122); h1 and h2 are ignored -/
  | reserved (op : ReservedOp) (h1 h2 : Half)
  /-- `BSET j` (R91) -/
  | bset (j : Nat)
  /-- `BTEST j` (R92) -/
  | btest (j : Nat)
  /-- `IDXGEN h1, h2, i` (R80) -/
  | idxgen (h1 h2 : Half) (i : Nat)
deriving DecidableEq, Repr

end Sys2Proof
end

