-- ==== Sys2Proof/WellFormed.lean ====
section
/-! DEFINITION. Which operands fit the fields of their format under a configuration. -/

namespace Sys2Proof

/-- The operands fit their fields: an index has IDX_W bits (R65), a round number has IW bits (R66). The halves fit by
their type, and a reserved op code is one of its two values by its type. -/
def wellFormed (c : Cfg) : Instr → Bool
  | .add _ _ => true
  | .check _ _ => true
  | .reserved _ _ _ => true
  | .bset j => decide (j < 2 ^ c.idxW)
  | .btest j => decide (j < 2 ^ c.idxW)
  | .idxgen _ _ i => decide (i < 2 ^ c.iw)

end Sys2Proof
end

