-- ==== Sys2Proof/Decode.lean ====
section
/-! DEFINITION. Decoding a word of a port (R62, R65, R66, R69), encoding, and the op code table's rows. -/

namespace Sys2Proof

/-- The width of a word of the port's format (R68). -/
def portWidth (c : Cfg) : Port → Nat
  | .cmd => 130
  | .ba => c.idxW + 1
  | .ig => 128 + c.iw

/-- `w[lo+len-1 : lo]` as a number (R8). -/
def field (w lo len : Nat) : Nat := w / 2 ^ lo % 2 ^ len

/-- A 64-bit field as a hash half. -/
def halfAt (w lo : Nat) : Half := BitVec.ofNat 64 (field w lo 64)

/-- Why a number is no word of a port. -/
inductive DecodeError where
  /-- the number has more bits than the port has signals -/
  | wordTooWide (p : Port) (w : Nat)
deriving DecidableEq, Repr

/-- A CMD word: the op code in [1:0] selects ADD, CHECK or a reserved command; h1 in [65:2], h2 in [129:66] (R62, R63, R69). -/
def decodeCmd (w : Nat) : Instr :=
  if field w 0 2 = 0 then .add (halfAt w 2) (halfAt w 66)
  else if field w 0 2 = 1 then .check (halfAt w 2) (halfAt w 66)
  else if field w 0 2 = 2 then .reserved .op2 (halfAt w 2) (halfAt w 66)
  else .reserved .op3 (halfAt w 2) (halfAt w 66)

/-- A BA word: ba_op in [0] (1 is BSET, 0 is BTEST), the index in [IDX_W:1] (R65, R69). -/
def decodeBa (c : Cfg) (w : Nat) : Instr :=
  if field w 0 1 = 1 then .bset (field w 1 c.idxW) else .btest (field w 1 c.idxW)

/-- An IG word: h1 in [63:0], h2 in [127:64], i in [127+IW:128]; every word is IDXGEN (R66, R69). -/
def decodeIg (c : Cfg) (w : Nat) : Instr :=
  .idxgen (halfAt w 0) (halfAt w 64) (field w 128 c.iw)

/-- Decoding is total on the words of each port (R69). A number that is too wide to be a word of the port is rejected by
name (log 7, safe). -/
def decode (c : Cfg) (p : Port) (w : Nat) : Except DecodeError Instr :=
  if w < 2 ^ portWidth c p then
    match p with
    | .cmd => .ok (decodeCmd w)
    | .ba => .ok (decodeBa c w)
    | .ig => .ok (decodeIg c w)
  else .error (.wordTooWide p w)

/-- The op code of a reserved command (R63). -/
def ReservedOp.code : ReservedOp → BitVec 2
  | .op2 => 2
  | .op3 => 3

/-- The CMD word `{h2, h1, op}` = op + h1·2^2 + h2·2^66 (R62). -/
def cmdWordOf (op : Nat) (h1 h2 : Half) : Nat := op + h1.toNat * 2 ^ 2 + h2.toNat * 2 ^ 66

/-- The port an operation's word is driven on (R68). -/
def portOf : Instr → Port
  | .add _ _ => .cmd
  | .check _ _ => .cmd
  | .reserved _ _ _ => .cmd
  | .bset _ => .ba
  | .btest _ => .ba
  | .idxgen _ _ _ => .ig

/-- The word of an operation on its port (R62, R65, R66). -/
def encode : Instr → Nat
  | .add h1 h2 => cmdWordOf 0 h1 h2
  | .check h1 h2 => cmdWordOf 1 h1 h2
  | .reserved op h1 h2 => cmdWordOf op.code.toNat h1 h2
  | .bset j => j * 2 + 1
  | .btest j => j * 2
  | .idxgen h1 h2 i => h1.toNat + h2.toNat * 2 ^ 64 + i * 2 ^ 128

/-- One row of spec/opcode_table.json: a word `w` of the row's format matches when `w & mask = pattern` (R69). -/
structure TableRow where
  mnemonic : String
  port : Port
  pattern : Nat
  mask : Nat
deriving DecidableEq, Repr

/-- The rows of spec/opcode_table.json. -/
def tableRows : List TableRow :=
  [⟨"ADD", .cmd, 0x0, 0x3⟩, ⟨"CHECK", .cmd, 0x1, 0x3⟩, ⟨"reserved__ILLEGAL_OP", .cmd, 0x2, 0x2⟩,
   ⟨"BSET", .ba, 0x1, 0x1⟩, ⟨"BTEST", .ba, 0x0, 0x1⟩, ⟨"IDXGEN", .ig, 0x0, 0x0⟩]

/-- The row is of the port's format and the word matches it (R69). -/
def TableRow.matches (r : TableRow) (p : Port) (w : Nat) : Bool :=
  decide (r.port = p) && decide (w &&& r.mask = r.pattern)

/-- The mnemonic of an operation in spec/opcode_table.json. -/
def mnemonicOf : Instr → String
  | .add _ _ => "ADD"
  | .check _ _ => "CHECK"
  | .reserved _ _ _ => "reserved__ILLEGAL_OP"
  | .bset _ => "BSET"
  | .btest _ => "BTEST"
  | .idxgen _ _ _ => "IDXGEN"

/-- The port the host's two placing functions take a word of `nbits` bits for (DESIGN CHOICE, log 8): a word as long as an IG word, or a
table row without a fixed bit, is the IG port's; a word as long as a BA word, in bits or in whole bytes, is the BA port's;
any other is the command port's, the one port the host of the block reaches (R3). -/
def tablePort (c : Cfg) (nbits : Nat) : Port :=
  if nbits = 0 ∨ nbits = 128 + c.iw then .ig
  else if nbits = c.idxW + 1 ∨ nbits = (c.idxW + 8) / 8 * 8 then .ba
  else .cmd

/-- The operation read from a table row's word, under the reference configuration. -/
def decodeTableWord (nbits w : Nat) : Option Instr :=
  match decode Cfg.reference (tablePort Cfg.reference nbits) w with
  | .ok i => some i
  | .error _ => none

end Sys2Proof
end

