-- ==== Sys2Proof/Machine/State.lean ====
section
/-! DEFINITION. The state of one block instance (R20), its reset value (R32), and the reasons a step can stop. -/

namespace Sys2Proof.Machine

/-- The bit array's contents (R24, R40), sparsely: (index, bit) entries, indices strictly rising, no entry equal to 0,
which is what an unlisted index reads as (R32). The address unit is one bit (R40; DESIGN CHOICE of this packing, U19, log 5, safe). -/
abbrev Memory := List (Nat × Bit)

/-- What the host, or the tester of a part alone, drives at a clock edge (R60, R61, R65, R66, R140). DESIGN CHOICE (log 2): one entry
for each thing that happens, in the order it takes effect. -/
inductive Input where
  /-- `rst` is asserted (R140) -/
  | rst
  /-- `cmd_valid = 1` with this word on `cmd_op`, `cmd_h1`, `cmd_h2` (R60, R62) -/
  | cmd (w : CmdWord)
  /-- `cmd_valid = 0` (R60): nothing is presented on the command port, or no longer (R145) -/
  | cmdLow
  /-- `rsp_ready = 1` (R61) -/
  | rspReady
  /-- `rsp_ready = 0` (R61): no response is asked for, or no longer (R145) -/
  | rspLow
  /-- a word on the BA port, driven from outside the sequencer (R65, R91) -/
  | ba (w : Nat)
  /-- a word on the IG port, driven from outside the sequencer (R66) -/
  | ig (w : Nat)
deriving DecidableEq, Repr

/-- The reasons a run of the model ends in a fault: none. Both faults of the block (R120) enter its fault state, which is
a next state (R123, R124), and no rule of the spec ends a run (DEDUCED, log 12, safe). -/
inductive Fault where
deriving DecidableEq, Repr

/-- The reasons the model refuses a step. -/
inductive Refusal where
  /-- Raised by an arm of `exec` whose instruction has no meaning yet. Safe: nothing is claimed of it. -/
  | notModelled (mnemonic : String)
  /-- Raised by `step` under a configuration of which no block exists (R7, R126, U8: "refuse"; log 11). Safe. -/
  | illegalConfiguration
  /-- Raised by `step` for a number with more bits than the port it is driven on (R65, R66, R68; log 7): no such word can
  be presented. Safe. -/
  | wordTooWide (p : Port) (w : Nat)
deriving DecidableEq, Repr

/-- One block instance and what will be driven into it. -/
structure State where
  /-- the configuration the block was built with; no step changes it (R5, R23, log 1) -/
  cfg : Cfg
  /-- the bit array (R24) -/
  bits : Memory
  /-- 1 while in the fault state (R27) -/
  fault : Bit
  /-- why the fault state was entered (R27, R120) -/
  faultCause : BitVec 2
  /-- the value recorded with the fault (R27) -/
  faultInfo : BitVec 64
  /-- CHECK responses not yet taken by the host, oldest first (R28) -/
  rspq : List Bit
  /-- the output `ba_rdata` of the part BA; `none` where the spec defines no value on it (R65, R92, U4, log 3) -/
  baRdata : Option Bit
  /-- the output `ig_index` of the part IG; `none` where the spec defines no value on it (R66, R80, log 3) -/
  igIndex : Option Nat
  /-- the model's own: the command words presented and not yet accepted (R145, log 4) -/
  heldWords : List CmdWord
  /-- the model's own: `rsp_ready` was raised and no response has been taken since (R145, log 4) -/
  heldReady : Bit
  /-- the model's own: what will be driven into the block, oldest first (log 2) -/
  inputs : List Input
  /-- the model's own: how many free values have been drawn (log 4, log 6) -/
  draws : Nat
deriving DecidableEq, Repr

/-- The block of a configuration right after reset (R32), with nothing presented to it. `baRdata` and `igIndex` show no
value, since no operation has driven them (DESIGN CHOICE, log 3); `inputs`, `heldWords`, `heldReady` and `draws`
start empty, empty, 0 and 0 (DESIGN CHOICE, log 2, log 4). -/
def State.resetOf (c : Cfg) : State where
  cfg := c
  bits := []
  fault := false
  faultCause := 0
  faultInfo := 0
  rspq := []
  baRdata := none
  igIndex := none
  heldWords := []
  heldReady := false
  inputs := []
  draws := 0

/-- The reference block (R6) right after reset. -/
def State.reset : State := State.resetOf Cfg.reference

end Sys2Proof.Machine
end

