-- ==== Sys2Proof/Machine/Operands.lean ====
section
/-! DEFINITION. The operands of the operations: the index function (R81), the K indices of a command (R100), widening to 64 bits. -/

namespace Sys2Proof.Machine

/-- `(h1 + i * h2) mod M` over unbounded naturals (R81, EXACT). -/
def idxExact (M : Nat) (h1 h2 : Half) (i : Nat) : Nat := (h1.toNat + i * h2.toNat) % M

/-- `((h1 + ((i * h2) mod 2^64)) mod 2^64) mod M` (R81, WRAP64). -/
def idxWrap64 (M : Nat) (h1 h2 : Half) (i : Nat) : Nat :=
  (h1.toNat + i * h2.toNat % 2 ^ 64) % 2 ^ 64 % M

/-- The index function idx(h1, h2, i) of a configuration (R81). -/
def idx (c : Cfg) (h1 h2 : Half) (i : Nat) : Nat :=
  match c.indexArith with
  | .EXACT => idxExact c.M h1 h2 i
  | .WRAP64 => idxWrap64 c.M h1 h2 i

/-- The indices of the K rounds of one command, in the order i = 0, 1, …, K-1 (R84, R100). -/
def indices (c : Cfg) (h1 h2 : Half) : List Nat := (List.range c.K).map (idx c h1 h2)

/-- zext_64 of an op code (R122). -/
def zext64Op (op : BitVec 2) : BitVec 64 := op.setWidth 64

/-- zext_64 of an index (R121). For an index of more than 64 bits the spec states no such value, and it is the free value
number `draw` (log 6). -/
def zext64Index (j draw : Nat) : BitVec 64 :=
  if j < 2 ^ 64 then BitVec.ofNat 64 j else Config.wideFaultInfo draw

end Sys2Proof.Machine
end

