-- ==== Sys2Proof/Machine/Ops.lean ====
section
/-! DEFINITION. The operations over the bit array, the response queue, the part outputs and the fault state; entering the fault
state (R123) and leaving it by reset (R140). -/

namespace Sys2Proof.Machine

/-! ### The bit array -/

/-- `MemRead(j, 1)` (R10): the bit at index j; an unlisted index reads 0 (R32). -/
def Memory.read : Memory → Nat → Bit
  | [], _ => false
  | (a, b) :: m, j => if a = j then b else Memory.read m j

/-- `MemWrite(j, 1, b)` (R10), keeping the canonical form: a written 0 removes the entry. -/
def Memory.write : Memory → Nat → Bit → Memory
  | [], j, b => if b then [(j, b)] else []
  | (a, c) :: m, j, b =>
    if j < a then (if b then (j, b) :: (a, c) :: m else (a, c) :: m)
    else if j = a then (if b then (a, b) :: m else m)
    else (a, c) :: Memory.write m j b

/-- Every index of `m` is above `lo`, they rise strictly, and no entry is 0. -/
def Memory.wfAbove (lo : Nat) : Memory → Bool
  | [] => true
  | (a, b) :: m => decide (lo < a) && b && Memory.wfAbove a m

/-- The canonical form: indices strictly rising, no entry equal to what an unlisted index reads as. -/
def Memory.wf : Memory → Bool
  | [] => true
  | (a, b) :: m => b && Memory.wfAbove a m

/-- BSET on each index of a sequence in turn (R93, R101). -/
def Memory.setAll (m : Memory) (js : List Nat) : Memory :=
  js.foldl (fun m j => Memory.write m j true) m

/-! ### Named updates of the state -/

/-- `bits` takes a new value. -/
def State.setBits (s : State) (m : Memory) : State := { s with bits := m }

/-- `emit(hit)` (R10): append one CHECK response. -/
def State.emit (s : State) (hit : Bit) : State := { s with rspq := s.rspq ++ [hit] }

/-- The output `ba_rdata` takes a value, or shows no defined value. -/
def State.setRdata (s : State) (b : Option Bit) : State := { s with baRdata := b }

/-- The output `ig_index` takes a value, or shows no defined value. -/
def State.setIndex (s : State) (n : Option Nat) : State := { s with igIndex := n }

/-- The sequencer has driven the parts (R100): their outputs show no value the spec defines (R29;
DESIGN CHOICE, log 3). -/
def State.seqDrives (s : State) : State := { s with baRdata := none, igIndex := none }

/-- The words presented and not yet accepted (R145). -/
def State.setHeld (s : State) (ws : List CmdWord) : State := { s with heldWords := ws }

/-- Whether `rsp_ready` was raised and has not been answered (R145). -/
def State.setHeldReady (s : State) (b : Bit) : State := { s with heldReady := b }

/-- What is still to be driven into the block. -/
def State.setInputs (s : State) (xs : List Input) : State := { s with inputs := xs }

/-- A free value has been drawn. -/
def State.advanceDraws (s : State) : State := { s with draws := s.draws + 1 }

/-- `raise Fault(cause, info)` (R123): enter the fault state; `bits`, `rspq` and everything else are unchanged. -/
def raiseFault (cause : BitVec 2) (info : BitVec 64) (s : State) : State :=
  { s with fault := true, faultCause := cause, faultInfo := info }

/-- Reset, the only way out of the fault state (R32, R130, R140, R141): all state takes its reset value, untaken
responses are lost, the host is released from what it presented (R145); the configuration stays. What will be driven
later, and the count of drawn values, are no state of the block and stay. -/
def applyReset (s : State) : State :=
  { State.resetOf s.cfg with inputs := s.inputs, draws := s.draws }

/-! ### The ports -/

/-- `cmd_ready` (R60, R124, R147), but for stalls of timing alone (log 2). -/
def cmdReady (s : State) : Bool := !s.fault && decide (s.rspq.length < s.cfg.rspqDepth)

/-- `rsp_valid` (R61). -/
def rspValid (s : State) : Bool := !s.rspq.isEmpty

/-- `rsp_hit` (R61): the oldest response; it shows nothing while `rsp_valid = 0`. -/
def rspHit (s : State) : Option Bit := s.rspq.head?

/-- The oldest response is removed when there is one (R61). -/
def takeResponse (s : State) : State := { s with rspq := s.rspq.tail }

/-- A command offered to the block takes effect when the port is ready (R60, R124, R147); else it is not accepted, and
nothing changes (DEDUCED, log 9, safe). -/
def accepted (effect : State → State) (s : State) : Host.Outcome State Fault Refusal :=
  if cmdReady s then .next (effect s) else .next s

end Sys2Proof.Machine
end

