-- ==== Sys2Proof/Machine/Flags.lean ====
section
/-! DEFINITION. The status fields and the one condition code: the fault causes (R120), raising each of them (R121, R122), and the
hit bit of a CHECK (R28, R102). -/

namespace Sys2Proof.Machine

/-- The cause code NONE (R120). -/
def causeNone : BitVec 2 := 0

/-- The cause code ILLEGAL_OP (R120). -/
def causeIllegalOp : BitVec 2 := 1

/-- The cause code INDEX_RANGE (R120). -/
def causeIndexRange : BitVec 2 := 2

/-- `Fault(ILLEGAL_OP, zext_64(op))` (R122). -/
def raiseIllegalOp (op : BitVec 2) (s : State) : State :=
  raiseFault causeIllegalOp (zext64Op op) s

/-- `Fault(INDEX_RANGE, zext_64(j))` (R121). An index of more than 64 bits draws a free value (log 6). -/
def raiseIndexRange (j : Nat) (s : State) : State :=
  if j < 2 ^ 64 then raiseFault causeIndexRange (zext64Index j s.draws) s
  else (raiseFault causeIndexRange (zext64Index j s.draws) s).advanceDraws

/-- The hit bit: the AND of the bits at the indices (R102). -/
def hitOf (m : Memory) (js : List Nat) : Bit :=
  js.foldl (fun hit j => hit && Memory.read m j) true

/-- The hit bit of a block that stops testing at the first 0 bit (R102, U13). The step does not use it: it is stated to
equal `hitOf`. -/
def hitEarlyStop (m : Memory) : List Nat → Bit
  | [] => true
  | j :: js => if Memory.read m j then hitEarlyStop m js else false

end Sys2Proof.Machine
end

