-- ==== Sys2Proof/Machine/BitArray.lean ====
section
/-! DEFINITION. The operations of the part BA, driven from outside the sequencer: BSET (R91) and BTEST (R92). -/

namespace Sys2Proof.Machine

/-- One operation of the part BA (R90, R95): nothing while in the fault state (R124), INDEX_RANGE for an index ≥ M
(R121), else its effect. `ba_rdata` shows no value unless the effect puts one there (DESIGN CHOICE,
log 3). An index beyond IDX_W bits, which no word holds, is out of range too (DESIGN CHOICE, log 13, safe). -/
def baOperation (j : Nat) (effect : State → State) (s : State) : Host.Outcome State Fault Refusal :=
  if s.fault then .next (s.setRdata none)
  else if s.cfg.M ≤ j then .next (raiseIndexRange j (s.setRdata none))
  else .next (effect (s.setRdata none))

/-- BSET j (R91): bits[j] <- 1. -/
def execBset (j : Nat) (s : State) : Host.Outcome State Fault Refusal :=
  baOperation j (fun s => s.setBits (Memory.write s.bits j true)) s

/-- BTEST j (R92): ba_rdata <- bits[j]. -/
def execBtest (j : Nat) (s : State) : Host.Outcome State Fault Refusal :=
  baOperation j (fun s => s.setRdata (some (Memory.read s.bits j))) s

end Sys2Proof.Machine
end

