-- ==== Sys2Proof/Machine/FilterCommands.lean ====
section
/-! DEFINITION. The commands of the command port: ADD (R101), CHECK (R102), and the reserved op codes (R122). -/

namespace Sys2Proof.Machine

/-- ADD h1, h2 (R101): set the K bits of (h1, h2). -/
def execAdd (h1 h2 : Half) (s : State) : Host.Outcome State Fault Refusal :=
  accepted (fun s => s.seqDrives.setBits (Memory.setAll s.bits (indices s.cfg h1 h2))) s

/-- CHECK h1, h2 (R102): append the AND of the K bits of (h1, h2) to the responses. -/
def execCheck (h1 h2 : Half) (s : State) : Host.Outcome State Fault Refusal :=
  accepted (fun s => s.seqDrives.emit (hitOf s.bits (indices s.cfg h1 h2))) s

/-- A command with a reserved op code (R64, R122): accepted, and raises ILLEGAL_OP in the same step. -/
def execReserved (op : ReservedOp) (s : State) : Host.Outcome State Fault Refusal :=
  accepted (raiseIllegalOp op.code) s

end Sys2Proof.Machine
end

