-- ==== Sys2Proof/Machine/IndexGenerator.lean ====
section
/-! DEFINITION. The operation of the part IG, driven from outside the sequencer: IDXGEN (R80). -/

namespace Sys2Proof.Machine

/-- IDXGEN h1, h2, i (R80): ig_index <- idx(h1, h2, i). It reads and writes no state, and the fault state does not stop
it: R124 stops the command port and the part BA only (DEDUCED, log 10, unsafe if IG stopped too). -/
def execIdxgen (h1 h2 : Half) (i : Nat) (s : State) : Host.Outcome State Fault Refusal :=
  .next (s.setIndex (some (idx s.cfg h1 h2 i)))

end Sys2Proof.Machine
end

