-- ==== Sys2Proof/Machine/Dispatch.lean ====
section
/-! DEFINITION. The meaning of every operation: one arm per constructor of Instr. -/

namespace Sys2Proof.Machine

/-- One operation on its port, carried out as one indivisible step (R47). -/
def exec (i : Instr) (s : State) : Host.Outcome State Fault Refusal :=
  match i with
  | .add h1 h2 => Sys2Proof.Machine.execAdd h1 h2 s
  | .check h1 h2 => Sys2Proof.Machine.execCheck h1 h2 s
  | .reserved op _ _ => Sys2Proof.Machine.execReserved op s
  | .bset j => Sys2Proof.Machine.execBset j s
  | .btest j => Sys2Proof.Machine.execBtest j s
  | .idxgen h1 h2 n => Sys2Proof.Machine.execIdxgen h1 h2 n s

end Sys2Proof.Machine
end

