-- ==== Sys2Proof/Machine/Ports.lean ====
section
/-! DEFINITION. What an edge on each port does: a word decoded and carried out, a command accepted or held (R60, R145). -/

namespace Sys2Proof.Machine

/-- Decode a word of a port and carry out its operation. A number too wide for the port is refused (log 7). -/
def runWord (p : Port) (w : Nat) (s : State) : Host.Outcome State Fault Refusal :=
  match decode s.cfg p w with
  | .ok i => exec i s
  | .error _ => .refused (.wordTooWide p w)

/-- The words the host has presented, with the one it presents at this edge (R145). -/
def presented (held : List CmdWord) (w : CmdWord) : List CmdWord :=
  if w ∈ held then held else held ++ [w]

/-- The word accepted of a host that presented `ws` and changed it before the accepting edge: any one of them, the one
that free value number `draw` names (R145, U7, log 4). -/
def drawnFrom (ws : List CmdWord) (w : CmdWord) (draw : Nat) : CmdWord :=
  ws.getD (Config.drawnWord draw % ws.length) w

/-- An edge with `cmd_valid = 1` and the word `w` (R60, R145). Ready: the command is accepted, being `w` itself if the host
presented no other word since the last acceptance, and else a draw. Not ready: nothing is accepted, and the word is held. -/
def commandEdge (w : CmdWord) (s : State) : Host.Outcome State Fault Refusal :=
  if cmdReady s then
    if s.heldWords.all (fun v => decide (v = w)) then runWord .cmd w.toNat (s.setHeld [])
    else
      runWord .cmd (drawnFrom (presented s.heldWords w) w s.draws).toNat (s.setHeld []).advanceDraws
  else .next (s.setHeld (presented s.heldWords w))

/-- An edge with `cmd_valid = 0` (R60, R145). With no word held, or a port that is not ready, nothing happens. Else the host
lowered `cmd_valid` before its command was accepted: one of the words it presented is accepted, or none, as free values
say (log 4). -/
def commandLow (s : State) : Host.Outcome State Fault Refusal :=
  match s.heldWords with
  | [] => .next s
  | w :: ws =>
    if cmdReady s then
      if Config.drawnTake s.draws then
        runWord .cmd (drawnFrom (w :: ws) w s.draws).toNat (s.setHeld []).advanceDraws
      else .next (s.setHeld []).advanceDraws
    else .next s

/-- An edge with `rsp_ready = 1` (R61, R145): the oldest response is taken; with none queued, `rsp_ready` is held. -/
def responseEdge (s : State) : State :=
  if rspValid s then (takeResponse s).setHeldReady false else s.setHeldReady true

/-- An edge with `rsp_ready = 0` (R61, R145). With no response queued, or `rsp_ready` not raised before, nothing happens.
Else the host lowered `rsp_ready` before it was answered: the oldest response is taken, or not, as a free value says
(log 4). -/
def responseLow (s : State) : State :=
  if rspValid s && s.heldReady then
    ((if Config.drawnTake s.draws then takeResponse s else s).setHeldReady false).advanceDraws
  else s

/-- One edge at which `x` is driven. -/
def driveInput (x : Input) (s : State) : Host.Outcome State Fault Refusal :=
  match x with
  | .rst => .next (applyReset s)
  | .cmd w => commandEdge w s
  | .cmdLow => commandLow s
  | .rspReady => .next (responseEdge s)
  | .rspLow => .next (responseLow s)
  | .ba w => runWord .ba w s
  | .ig w => runWord .ig w s

/-- The input that drives a word on a port. -/
def inputOf (p : Port) (w : Nat) : Input :=
  match p with
  | .cmd => .cmd (BitVec.ofNat 130 w)
  | .ba => .ba w
  | .ig => .ig w

end Sys2Proof.Machine
end

