-- ==== Sys2Proof/Machine/Step.lean ====
section
/-! DEFINITION. One step of the machine: the next input is driven; with none, all state is kept. -/

namespace Sys2Proof.Machine

/-- One step (R47, R146): the next thing driven into the block happens. A configuration of which no block exists is
refused before any step (R126). With nothing presented the block does nothing and keeps all state (R137). -/
def step (s : State) : Host.Outcome State Fault Refusal :=
  if s.cfg.Buildable then
    match s.inputs with
    | [] => .next s
    | x :: xs => driveInput x (s.setInputs xs)
  else .refused .illegalConfiguration

/-- `s` with a word as the next thing driven into it, on the port that `tablePort` gives (log 8), and no other command
word held. -/
def State.withFetchWord (s : State) (nbits w : Nat) : State :=
  (s.setHeld []).setInputs (inputOf (tablePort s.cfg nbits) w :: s.inputs)

end Sys2Proof.Machine
end

