-- ==== Sys2Proof/Machine/Sequencer.lean ====
section
/-! DEFINITION. The sequencer written out round by round over the operations of the parts (R100). The step does not use it: the
commands' one-step meanings (R101, R102) are stated to agree with it. -/

namespace Sys2Proof.Machine

/-- Operations carried out one after another on their ports, stopping at the first that gives no next state. -/
def execAll : List Instr → State → Host.Outcome State Fault Refusal
  | [], s => .next s
  | i :: is, s =>
    match exec i s with
    | .next t => execAll is t
    | .fault r => .fault r
    | .refused r => .refused r

/-- The state an operation ends in, when it gives one. -/
def nextOf (o : Host.Outcome State Fault Refusal) : Option State :=
  match o with
  | .next s => some s
  | .fault _ => none
  | .refused _ => none

/-- One round of ADD (R100): IDXGEN with the round number, then BSET with the index it returns. -/
def addRound (h1 h2 : Half) (i : Nat) (s : State) : Option State := do
  let s₁ ← nextOf (exec (.idxgen h1 h2 i) s)
  let j ← s₁.igIndex
  nextOf (exec (.bset j) s₁)

/-- The rounds of ADD, in the order of the list of round numbers. -/
def addRounds (h1 h2 : Half) : List Nat → State → Option State
  | [], s => some s
  | i :: is, s => (addRound h1 h2 i s).bind (addRounds h1 h2 is)

/-- One round of CHECK (R100): IDXGEN with the round number, then BTEST with the index it returns; the result is the bit
on `ba_rdata`. -/
def checkRound (h1 h2 : Half) (i : Nat) (s : State) : Option (State × Bit) := do
  let s₁ ← nextOf (exec (.idxgen h1 h2 i) s)
  let j ← s₁.igIndex
  let s₂ ← nextOf (exec (.btest j) s₁)
  let b ← s₂.baRdata
  pure (s₂, b)

/-- The rounds of CHECK with the running AND (R29), in the order of the list of round numbers. -/
def checkRounds (h1 h2 : Half) : List Nat → State → Bit → Option (State × Bit)
  | [], s, hit => some (s, hit)
  | i :: is, s, hit =>
    (checkRound h1 h2 i s).bind fun r => checkRounds h1 h2 is r.1 (hit && r.2)

end Sys2Proof.Machine
end

