-- ==== Sys2Proof/Safety.lean ====
section
/-! DEFINITION. The terms claims are stated in: the invariant of a block, an empty filter, runs without a reset, what a command
word says. -/

namespace Sys2Proof.Machine

/-- The invariant of a block: what every rule of the spec promises of every state. -/
structure Inv (s : State) : Prop where
  /-- the bit array is in canonical form -/
  memory : Memory.wf s.bits = true
  /-- no bit beyond the array is set (R24, R40) -/
  inArray : ∀ j, s.cfg.M ≤ j → Memory.read s.bits j = false
  /-- while fault = 0, cause and info are 0 (R27) -/
  quiet : s.fault = false → s.faultCause = causeNone ∧ s.faultInfo = 0
  /-- a fault is ILLEGAL_OP with a reserved op code, or INDEX_RANGE with an index outside the array (R27, R120); an array
  of more than 2^64 bits has indices that `fault_info` cannot hold (log 6) -/
  faulted : s.fault = true →
    (s.faultCause = causeIllegalOp ∧ (s.faultInfo = 2 ∨ s.faultInfo = 3)) ∨
    (s.faultCause = causeIndexRange ∧ (s.cfg.M ≤ 2 ^ 64 → s.cfg.M ≤ s.faultInfo.toNat))
  /-- the block holds at most RSPQ_DEPTH responses (R147) -/
  queue : s.rspq.length ≤ s.cfg.rspqDepth
  /-- an index shown by IG is an index of the array (R82) -/
  index : ∀ n, s.igIndex = some n → n < s.cfg.M

/-- The filter is empty: every bit is 0 (R26). -/
def Empty (s : State) : Prop := ∀ j, Memory.read s.bits j = false

/-- None of the next n inputs is a reset. -/
def NoReset (n : Nat) (s : State) : Prop := Input.rst ∉ s.inputs.take n

/-- The input could set a bit: an ADD word on the command port (R63) or a BSET word on the BA port (R65). -/
def Input.setsBits : Input → Bool
  | .rst => false
  | .cmd w => decide (w.toNat % 4 = 0)
  | .cmdLow => false
  | .rspReady => false
  | .rspLow => false
  | .ba w => decide (w % 2 = 1)
  | .ig _ => false

/-- The input is driven from outside the sequencer on the BA port, which no host command is (R91). -/
def Input.isBa : Input → Bool
  | .rst => false
  | .cmd _ => false
  | .cmdLow => false
  | .rspReady => false
  | .rspLow => false
  | .ba _ => true
  | .ig _ => false

/-- What is driven is a word of its port: it has no more bits than the port (R68). -/
def Input.fits (c : Cfg) : Input → Prop
  | .rst => True
  | .cmd _ => True
  | .cmdLow => True
  | .rspReady => True
  | .rspLow => True
  | .ba w => w < 2 ^ portWidth c .ba
  | .ig w => w < 2 ^ portWidth c .ig

/-- The next input could have this command word accepted: a command edge takes the word at the edge or one held (R145), and
an edge with `cmd_valid` lowered takes one held. -/
def CouldAccept (s : State) (v : CmdWord) : Prop :=
  (∃ w, s.inputs.head? = some (.cmd w) ∧ (v = w ∨ v ∈ s.heldWords)) ∨
  (s.inputs.head? = some .cmdLow ∧ v ∈ s.heldWords)

/-- The same state of a block built with another LATENCY (R146). -/
def State.withLatency (s : State) (n : Nat) : State := { s with cfg := { s.cfg with latency := n } }

/-- SMALL of 95_test_vectors.md, with room for `depth` responses. -/
def Cfg.small (depth : Nat) : Cfg where
  M := 10
  K := 4
  indexArith := .EXACT
  mMax := 10
  latency := 1
  rspqDepth := depth

/-- `t` is reached from `s` in n steps. -/
def Reaches (n : Nat) (s t : State) : Prop := Host.Core.run Sys2Proof.core n s = .next t

end Sys2Proof.Machine
end

