-- ==== Sys2Proof/Certificates/Slice0/Obligations.lean ====
section
/-! DEFINITION. The statements for the provers, from the numbered rules of spec/. -/

open Sys2Proof Sys2Proof.Machine

/-- For every configuration and every well-formed operation, decoding its encoded word on its port gives the operation back, with every operand at every value. (R62, R65, R66, R69) -/
def Obligations.DecodeOfEncodeIsTheOperation : Prop :=
  ∀ (c : Cfg) (i : Instr), wellFormed c i = true → decode c (portOf i) (encode i) = .ok i

/-- For every configuration, port and word that decodes to an operation, the operation is one of that port, is well formed, and its encoding is the word: no bit of a word is dropped. (R62, R65, R66, R67, R69) -/
def Obligations.EncodeOfDecodeIsTheWord : Prop :=
  ∀ (c : Cfg) (p : Port) (w : Nat) (i : Instr), decode c p w = .ok i →
    portOf i = p ∧ encode i = w ∧ wellFormed c i = true

/-- Every word of a port decodes to an operation; exactly one table row of the port's format matches the word, and it is the operation's row; on the command port the two low bits 00, 01 and the rest select ADD, CHECK and the illegal row; on the BA port bit 0 selects BSET or BTEST; every IG word is IDXGEN. (R69) -/
def Obligations.EveryWordMatchesExactlyOneRow : Prop :=
  ∀ (c : Cfg) (p : Port) (w : Nat), w < 2 ^ portWidth c p →
    ∃ i, decode c p w = .ok i ∧
      (tableRows.filter fun r => r.matches p w).map (·.mnemonic) = [mnemonicOf i] ∧
      (p = .cmd →
        ((w % 4 = 0 ↔ mnemonicOf i = "ADD") ∧ (w % 4 = 1 ↔ mnemonicOf i = "CHECK") ∧
          (2 ≤ w % 4 ↔ mnemonicOf i = "reserved__ILLEGAL_OP"))) ∧
      (p = .ba → ((w % 2 = 1 ↔ mnemonicOf i = "BSET") ∧ (w % 2 = 0 ↔ mnemonicOf i = "BTEST"))) ∧
      (p = .ig → mnemonicOf i = "IDXGEN")

/-- The words the spec writes out for ADD 3, 4, CHECK 3, 4, a reserved command, BSET 7, BTEST 6 and IDXGEN 3, 4, 2 decode to them under the configuration SMALL. (95_test_vectors.md Part 2 and Part 3, R62, R65, R66) -/
def Obligations.WrittenOutWordsDecode : Prop :=
  decode (Cfg.small 1) .cmd 0x00000000000000010000000000000000C = .ok (.add 3 4) ∧
    decode (Cfg.small 1) .cmd 0x00000000000000010000000000000000D = .ok (.check 3 4) ∧
    decode (Cfg.small 1) .cmd 0x000000000000000040000000000000007 = .ok (.reserved .op3 1 1) ∧
    decode (Cfg.small 1) .ba 0xF = .ok (.bset 7) ∧
    decode (Cfg.small 1) .ba 0xC = .ok (.btest 6) ∧
    decode (Cfg.small 1) .ig 0x200000000000000040000000000000003 = .ok (.idxgen 3 4 2)

/-- When a ready block has a command word next in its inputs, and the host has presented no other word since the last acceptance, the word decodes to an operation and the step is exec of it on the state with that input consumed and no word held. The condition on the words presented comes from R145; keeping them in heldWords, and holding none after an acceptance, is the model's choice (log 4, DESIGN CHOICE), and so is the input that the step consumes (log 2, DESIGN CHOICE). (R47, R60, R69, R145) -/
def Obligations.StepRunsThePresentedCommand : Prop :=
  ∀ (s : State) (w : CmdWord) (rest : List Input), s.cfg.Buildable → s.inputs = .cmd w :: rest →
    cmdReady s = true → (∀ v ∈ s.heldWords, v = w) →
    ∃ i, decode s.cfg .cmd w.toNat = .ok i ∧ step s = exec i ((s.setInputs rest).setHeld [])

/-- When the next input is a word of the BA port or of the IG port that decodes to an operation, the step is exec of it on the state with that input consumed. The rules cited give the two formats and their decoding; that such a word is driven on the whole block in every state, with a full response queue and in the fault state too, is the model's reading (log 10, DEDUCED), and the input that the step consumes is its choice (log 2, DESIGN CHOICE). (R65, R66, R69) -/
def Obligations.StepRunsThePartWord : Prop :=
  ∀ (s : State) (w : Nat) (rest : List Input) (i : Instr), s.cfg.Buildable →
    (s.inputs = .ba w :: rest ∧ decode s.cfg .ba w = .ok i) ∨
      (s.inputs = .ig w :: rest ∧ decode s.cfg .ig w = .ok i) →
    step s = exec i (s.setInputs rest)

/-- When the block is in the fault state or its response queue is full, an edge with a command presented leaves all state of the block unchanged; the word joins the words presented and not yet accepted (the model's heldWords, log 4) and the input is consumed (log 2). (R60, R124, R145, R147) -/
def Obligations.UnreadyPortHoldsTheCommand : Prop :=
  ∀ (s : State) (w : CmdWord) (rest : List Input), s.cfg.Buildable → s.inputs = .cmd w :: rest →
    (s.fault = true ∨ s.cfg.rspqDepth ≤ s.rspq.length) →
    ∃ t, step s = .next t ∧ t.cfg = s.cfg ∧ t.bits = s.bits ∧ t.fault = s.fault ∧
      t.faultCause = s.faultCause ∧ t.faultInfo = s.faultInfo ∧ t.rspq = s.rspq ∧
      t.baRdata = s.baRdata ∧ t.igIndex = s.igIndex ∧ t.draws = s.draws ∧ t.inputs = rest ∧
      t.heldReady = s.heldReady ∧ ∀ v, v ∈ t.heldWords ↔ v ∈ s.heldWords ∨ v = w

/-- When a ready block sees a command word at the edge and the host has presented another since the last acceptance, the step is exec of the decoding of one of the words presented, which one being open (a free value, log 4), on the state with that input consumed (log 2). (R145, 93_implementation_defined.md U7) -/
def Obligations.AcceptedWordIsOneOfThosePresented : Prop :=
  ∀ (s : State) (w : CmdWord) (rest : List Input), s.cfg.Buildable → s.inputs = .cmd w :: rest →
    cmdReady s = true → (∃ v ∈ s.heldWords, v ≠ w) →
    ∃ v i, (v = w ∨ v ∈ s.heldWords) ∧ decode s.cfg .cmd v.toNat = .ok i ∧
      step s = exec i ((s.setInputs rest).setHeld []).advanceDraws

/-- A step whose next input is a reset ends, from any state, in a state with every bit 0, fault, cause and info 0, an empty response queue and the same configuration; so are bits, fault, cause, info and queue of State.reset. (R32) -/
def Obligations.ResetSetsEveryPieceOfState : Prop :=
  (∀ (s : State) (rest : List Input), s.cfg.Buildable → s.inputs = .rst :: rest →
      ∃ t, step s = .next t ∧ (∀ j, Memory.read t.bits j = false) ∧ t.fault = false ∧
        t.faultCause = 0 ∧ t.faultInfo = 0 ∧ t.rspq = [] ∧ t.cfg = s.cfg) ∧
    (∀ j, Memory.read State.reset.bits j = false) ∧ State.reset.fault = false ∧
    State.reset.faultCause = 0 ∧ State.reset.faultInfo = 0 ∧ State.reset.rspq = []

/-- A step whose next input is a reset leaves no command word and no rsp_ready held (the host is released, R145; the model's heldWords and heldReady, log 4) and no value on ba_rdata and ig_index (the model's choice, log 3), consumes that one input (log 2) and keeps the draw counter. (R140, R145, R141) -/
def Obligations.ResetDropsHeldWordsAndKeepsLaterInputs : Prop :=
  ∀ (s : State) (rest : List Input), s.cfg.Buildable → s.inputs = .rst :: rest →
    ∃ t, step s = .next t ∧ t.heldWords = [] ∧ t.heldReady = false ∧ t.baRdata = none ∧ t.igIndex = none ∧
      t.inputs = rest ∧ t.draws = s.draws

/-- State.reset, and the reset state of every configuration, meets Inv. (R24, R27, R32, R147) -/
def Obligations.ResetStateMeetsTheBlockInvariant : Prop :=
  Inv State.reset ∧ ∀ c : Cfg, Inv (State.resetOf c)

/-- When nothing is driven into a block, the step answers the same state (the inputs are the model's own field, log 2). (R137) -/
def Obligations.WithNoInputAllStateIsKept : Prop :=
  ∀ s : State, s.cfg.Buildable → s.inputs = [] → step s = .next s

/-- For every state whose configuration has M = 0, K = 0 or M > M_MAX, the step is refused by name. (R126) -/
def Obligations.IllegalConfigurationIsRefused : Prop :=
  ∀ s : State, s.cfg.M = 0 ∨ s.cfg.K = 0 ∨ s.cfg.mMax < s.cfg.M →
    step s = .refused .illegalConfiguration

/-- At an edge with rsp_ready = 1, rsp_valid is 1 exactly when a response is queued, rsp_hit shows the oldest, and the step removes it and nothing else; on an empty queue no state of the block changes, and rsp_ready counts as held (R145; the model's heldReady, log 4) until a response is taken. The input is consumed (log 2). (R28, R61, R145) -/
def Obligations.ResponsesAreTakenOldestFirst : Prop :=
  ∀ (s : State) (rest : List Input), s.cfg.Buildable → s.inputs = .rspReady :: rest →
    ∃ t, step s = .next t ∧
      (∀ b q, s.rspq = b :: q → rspValid s = true ∧ rspHit s = some b ∧ t.rspq = q ∧
        t.heldReady = false) ∧
      (s.rspq = [] → rspValid s = false ∧ t.rspq = [] ∧ t.heldReady = true) ∧
      t.cfg = s.cfg ∧ t.bits = s.bits ∧ t.fault = s.fault ∧ t.faultCause = s.faultCause ∧
      t.faultInfo = s.faultInfo ∧ t.baRdata = s.baRdata ∧ t.igIndex = s.igIndex ∧
      t.heldWords = s.heldWords ∧ t.inputs = rest ∧ t.draws = s.draws

/-- Outside the fault state and with room in the response queue, ADD h1, h2 completes: a bit is 1 afterwards exactly when it was 1 or is idx(h1, h2, i) for a round i < K; every such index is in the array when M ≥ 1; rspq and the fault fields are unchanged. (R101) -/
def Obligations.AddSetsExactlyItsBits : Prop :=
  ∀ (s : State) (h1 h2 : Half), s.fault = false → s.rspq.length < s.cfg.rspqDepth →
    ∃ t, exec (.add h1 h2) s = .next t ∧
      (∀ j, Memory.read t.bits j = true ↔
        Memory.read s.bits j = true ∨ ∃ i, i < s.cfg.K ∧ idx s.cfg h1 h2 i = j) ∧
      (1 ≤ s.cfg.M → ∀ i, idx s.cfg h1 h2 i < s.cfg.M) ∧
      t.rspq = s.rspq ∧ t.fault = s.fault ∧ t.faultCause = s.faultCause ∧
      t.faultInfo = s.faultInfo

/-- Outside the fault state and with room in the response queue, CHECK h1, h2 completes: it appends one bit to rspq, 1 exactly when bits[idx(h1, h2, i)] = 1 for every i < K; bits and the fault fields are unchanged. A block that stops at the first 0 bit computes the same hit. (R102) -/
def Obligations.CheckAppendsTheAndOfItsBits : Prop :=
  ∀ (s : State) (h1 h2 : Half), s.fault = false → s.rspq.length < s.cfg.rspqDepth →
    ∃ t hit, exec (.check h1 h2) s = .next t ∧ t.rspq = s.rspq ++ [hit] ∧
      (hit = true ↔ ∀ i, i < s.cfg.K → Memory.read s.bits (idx s.cfg h1 h2 i) = true) ∧
      hitEarlyStop s.bits (indices s.cfg h1 h2) = hit ∧
      t.bits = s.bits ∧ t.fault = s.fault ∧ t.faultCause = s.faultCause ∧
      t.faultInfo = s.faultInfo

/-- Outside the fault state and with room in the response queue, a command with op 2 or 3 completes: fault = 1, fault_cause = 1, fault_info is the op code zero-extended; bits and rspq are unchanged, and so are the part outputs, on which a use of the parts would show (log 3), whatever h1 and h2 are. (R64, R120, R122, R123) -/
def Obligations.ReservedOpRaisesIllegalOp : Prop :=
  ∀ (s : State) (op : ReservedOp) (h1 h2 : Half), s.fault = false →
    s.rspq.length < s.cfg.rspqDepth →
    ∃ t, exec (.reserved op h1 h2) s = .next t ∧ t.fault = true ∧ t.faultCause = 1 ∧
      t.faultInfo.toNat = op.code.toNat ∧ t.bits = s.bits ∧ t.rspq = s.rspq ∧
      t.baRdata = s.baRdata ∧ t.igIndex = s.igIndex ∧ t.cfg = s.cfg

/-- Outside the fault state, BSET j with j < M completes: bit j is 1, every other bit, rspq and the fault fields are as before. With j ≥ M (below 2^64, see log 6) it raises INDEX_RANGE with info j and touches no bit. (R91, R95, R121, R123) -/
def Obligations.BsetMarksOneBit : Prop :=
  ∀ (s : State) (j : Nat), s.fault = false →
    (j < s.cfg.M → ∃ t, exec (.bset j) s = .next t ∧ Memory.read t.bits j = true ∧
      (∀ k, k ≠ j → Memory.read t.bits k = Memory.read s.bits k) ∧ t.rspq = s.rspq ∧
      t.fault = false ∧ t.faultCause = s.faultCause ∧ t.faultInfo = s.faultInfo) ∧
    (s.cfg.M ≤ j → j < 2 ^ 64 → ∃ t, exec (.bset j) s = .next t ∧ t.fault = true ∧
      t.faultCause = 2 ∧ t.faultInfo.toNat = j ∧ t.bits = s.bits ∧ t.rspq = s.rspq)

/-- Outside the fault state, BTEST j with j < M completes: ba_rdata shows bit j; bits, rspq and the fault fields are as before. With j ≥ M (below 2^64, see log 6) it raises INDEX_RANGE with info j, touches no bit and shows no result (R92; that the model then shows none is log 3). (R92, R95, R121, R123) -/
def Obligations.BtestReadsOneBit : Prop :=
  ∀ (s : State) (j : Nat), s.fault = false →
    (j < s.cfg.M → ∃ t, exec (.btest j) s = .next t ∧ t.baRdata = some (Memory.read s.bits j) ∧
      t.bits = s.bits ∧ t.rspq = s.rspq ∧
      t.fault = false ∧ t.faultCause = s.faultCause ∧ t.faultInfo = s.faultInfo) ∧
    (s.cfg.M ≤ j → j < 2 ^ 64 → ∃ t, exec (.btest j) s = .next t ∧ t.baRdata = none ∧
      t.fault = true ∧ t.faultCause = 2 ∧ t.faultInfo.toNat = j ∧ t.bits = s.bits ∧
      t.rspq = s.rspq)

/-- The spec states no zero-extension of an index of more than 64 bits (log 6, DESIGN CHOICE: a free value). BSET and BTEST with such an index j ≥ M still raise INDEX_RANGE with every other effect of a fault. (R121, R123, R8) -/
def Obligations.WideIndexFaultsWithOpenInfo : Prop :=
  ∀ (s : State) (j : Nat) (i : Instr), i = .bset j ∨ i = .btest j → s.fault = false →
    s.cfg.M ≤ j → 2 ^ 64 ≤ j →
    ∃ t, exec i s = .next t ∧ t.fault = true ∧ t.faultCause = 2 ∧ t.bits = s.bits ∧
      t.rspq = s.rspq ∧ t.cfg = s.cfg

/-- In every state (in the fault state too, which is the model's reading, log 10) IDXGEN h1, h2, i completes: ig_index shows (h1 + i*h2) mod M formed over the naturals under EXACT, and with sum and product reduced mod 2^64 under WRAP64 (which is one reduction of the exact sum); everything else is unchanged, and the index is in the array when M ≥ 1. (R80, R81, R82) -/
def Obligations.IdxgenGivesTheIndex : Prop :=
  ∀ (s : State) (h1 h2 : Half) (i : Nat),
    ∃ t n, exec (.idxgen h1 h2 i) s = .next t ∧ t.igIndex = some n ∧
      (s.cfg.indexArith = .EXACT → n = (h1.toNat + i * h2.toNat) % s.cfg.M) ∧
      (s.cfg.indexArith = .WRAP64 →
        n = ((h1.toNat + (i * h2.toNat) % 2 ^ 64) % 2 ^ 64) % s.cfg.M ∧
        n = ((h1.toNat + i * h2.toNat) % 2 ^ 64) % s.cfg.M) ∧
      (1 ≤ s.cfg.M → n < s.cfg.M) ∧
      t.cfg = s.cfg ∧ t.bits = s.bits ∧ t.fault = s.fault ∧ t.faultCause = s.faultCause ∧
      t.faultInfo = s.faultInfo ∧ t.rspq = s.rspq ∧ t.baRdata = s.baRdata ∧
      t.heldWords = s.heldWords ∧ t.heldReady = s.heldReady ∧ t.inputs = s.inputs ∧
      t.draws = s.draws

/-- Whenever exec of ADD, CHECK or a reserved command gives a next state: configuration, held words, held rsp_ready, inputs and draws are unchanged; ADD changes no bit but its K indices and neither rspq nor the fault fields; CHECK changes no bit and no fault field and only appends to rspq; both leave the part outputs as they were or without a defined value (the model's choice, log 3); a reserved command changes no bit, no response and no part output. (R101, R102, R122, R123) -/
def Obligations.FrameOfFilterCommands : Prop :=
  ∀ (s t : State) (h1 h2 : Half) (op : ReservedOp) (i : Instr), exec i s = .next t →
    (i = .add h1 h2 ∨ i = .check h1 h2 ∨ i = .reserved op h1 h2 →
      t.cfg = s.cfg ∧ t.heldWords = s.heldWords ∧ t.heldReady = s.heldReady ∧
        t.inputs = s.inputs ∧ t.draws = s.draws) ∧
    (i = .add h1 h2 ∨ i = .check h1 h2 →
      (t.baRdata = s.baRdata ∧ t.igIndex = s.igIndex) ∨ (t.baRdata = none ∧ t.igIndex = none)) ∧
    (i = .add h1 h2 →
      t.rspq = s.rspq ∧ t.fault = s.fault ∧ t.faultCause = s.faultCause ∧
      t.faultInfo = s.faultInfo ∧
      ∀ k, k ∉ indices s.cfg h1 h2 → Memory.read t.bits k = Memory.read s.bits k) ∧
    (i = .check h1 h2 →
      t.fault = s.fault ∧ t.faultCause = s.faultCause ∧ t.faultInfo = s.faultInfo ∧
      (t.rspq = s.rspq ∨ ∃ hit, t.rspq = s.rspq ++ [hit]) ∧
      ∀ k, Memory.read t.bits k = Memory.read s.bits k) ∧
    (i = .reserved op h1 h2 →
      t.rspq = s.rspq ∧ t.baRdata = s.baRdata ∧ t.igIndex = s.igIndex ∧
      ∀ k, Memory.read t.bits k = Memory.read s.bits k)

/-- Whenever exec of BSET j or BTEST j gives a next state: configuration, rspq, ig_index, held words, held rsp_ready and inputs are unchanged; BSET changes no bit but bit j, and none when j ≥ M; BTEST changes no bit; the fault fields are unchanged when j < M or in the fault state. (R91, R92, R123, R124) -/
def Obligations.FrameOfBitArrayOperations : Prop :=
  ∀ (s t : State) (j : Nat) (i : Instr), exec i s = .next t → i = .bset j ∨ i = .btest j →
    t.cfg = s.cfg ∧ t.rspq = s.rspq ∧ t.igIndex = s.igIndex ∧ t.heldWords = s.heldWords ∧
    t.heldReady = s.heldReady ∧ t.inputs = s.inputs ∧ (j < 2 ^ 64 → t.draws = s.draws) ∧
    (∀ k, k ≠ j ∨ s.cfg.M ≤ j ∨ i = .btest j →
      Memory.read t.bits k = Memory.read s.bits k) ∧
    (j < s.cfg.M ∨ s.fault = true →
      t.fault = s.fault ∧ t.faultCause = s.faultCause ∧ t.faultInfo = s.faultInfo)

/-- In the fault state, or with RSPQ_DEPTH responses queued, exec of ADD, CHECK or a reserved command answers the same state (log 9). (R124, R147) -/
def Obligations.CommandTurnedAwayChangesNothing : Prop :=
  ∀ (s : State) (h1 h2 : Half) (op : ReservedOp),
    (s.fault = true ∨ s.cfg.rspqDepth ≤ s.rspq.length) →
    exec (.add h1 h2) s = .next s ∧ exec (.check h1 h2) s = .next s ∧
      exec (.reserved op h1 h2) s = .next s

/-- In the fault state BSET j and BTEST j, for any j, leave bits, the fault fields and rspq unchanged and show no result (none on ba_rdata is the model's choice, log 3). (R90, R124, R125) -/
def Obligations.FaultStatePerformsNoBitArrayOperation : Prop :=
  ∀ (s : State) (j : Nat) (i : Instr), i = .bset j ∨ i = .btest j → s.fault = true →
    ∃ t, exec i s = .next t ∧ t.bits = s.bits ∧ t.fault = true ∧ t.faultCause = s.faultCause ∧
      t.faultInfo = s.faultInfo ∧ t.rspq = s.rspq ∧ t.igIndex = s.igIndex ∧ t.baRdata = none

/-- From any state with fault = 1, a step whose next input is not a reset keeps fault, fault_cause, fault_info and bits; the response queue is unchanged, or has lost its oldest entry to the host, at an edge with rsp_ready raised or, for a host that lowered it early, at the edge that shows it lowered (R145, log 4). (R124, R125, R130, R145) -/
def Obligations.OnlyResetLeavesTheFaultState : Prop :=
  ∀ s t : State, step s = .next t → s.fault = true → s.inputs.head? ≠ some .rst →
    t.fault = true ∧ t.faultCause = s.faultCause ∧ t.faultInfo = s.faultInfo ∧
    t.bits = s.bits ∧
    (t.rspq = s.rspq ∨
      ((s.inputs.head? = some .rspReady ∨ s.inputs.head? = some .rspLow) ∧
        t.rspq = s.rspq.tail))

/-- From every state, a step whose next input is not a reset leaves every 1 bit 1. (R25) -/
def Obligations.BitsOnlyGrowBetweenResets : Prop :=
  ∀ s t : State, step s = .next t → s.inputs.head? ≠ some .rst →
    ∀ j, Memory.read s.bits j = true → Memory.read t.bits j = true

/-- From any state whose port is ready: ADD h1, h2 gives a next state t, and in every state u that any number of steps without a reset reaches from t, whatever is driven between, CHECK h1, h2 on a ready port gives a next state with the response 1 appended. (R103) -/
def Obligations.NoFalseNegatives : Prop :=
  ∀ (s : State) (h1 h2 : Half), cmdReady s = true →
    ∃ t, exec (.add h1 h2) s = .next t ∧
      ∀ (n : Nat) (u : State), NoReset n t → Reaches n t u → cmdReady u = true →
        ∃ v, exec (.check h1 h2) u = .next v ∧ v.rspq = u.rspq ++ [true]

/-- If CHECK h1, h2 on a ready port appended 1, then in every state u that steps without a reset reach, CHECK h1, h2 on a ready port appends 1 again. (R107) -/
def Obligations.AHitStaysAHitUntilReset : Prop :=
  ∀ (s t : State) (h1 h2 : Half), cmdReady s = true → exec (.check h1 h2) s = .next t →
    t.rspq = s.rspq ++ [true] →
    ∀ (n : Nat) (u : State), NoReset n t → Reaches n t u → cmdReady u = true →
      ∃ v, exec (.check h1 h2) u = .next v ∧ v.rspq = u.rspq ++ [true]

/-- For two states with ready ports and the same configuration whose bit arrays agree at idx(h1, h2, i) for i < K, whatever else differs, CHECK h1, h2 appends the same bit in both. (R30, R107) -/
def Obligations.CheckAnswerDependsOnItsBitsAlone : Prop :=
  ∀ (s₁ s₂ : State) (h1 h2 : Half), cmdReady s₁ = true → cmdReady s₂ = true →
    s₁.cfg = s₂.cfg →
    (∀ i, i < s₁.cfg.K → Memory.read s₁.bits (idx s₁.cfg h1 h2 i) =
      Memory.read s₂.bits (idx s₁.cfg h1 h2 i)) →
    ∃ t₁ t₂ hit, exec (.check h1 h2) s₁ = .next t₁ ∧ exec (.check h1 h2) s₂ = .next t₂ ∧
      t₁.rspq = s₁.rspq ++ [hit] ∧ t₂.rspq = s₂.rspq ++ [hit]

/-- From any state whose bits are all 0 (the state after a reset is one) and with no ADD word held, in every state that any number of steps reaches with no ADD word presented and no BSET driven, CHECK of any pair on a ready port appends 0. (R104) -/
def Obligations.EmptyFilterAnswersZero : Prop :=
  (∀ s : State, Empty (applyReset s)) ∧
    ∀ (s u : State) (n : Nat) (h1 h2 : Half), s.cfg.Legal → Empty s →
      (∀ v ∈ s.heldWords, (Input.cmd v).setsBits = false) →
      (∀ x ∈ s.inputs.take n, x.setsBits = false) → Reaches n s u → cmdReady u = true →
      ∃ v, exec (.check h1 h2) u = .next v ∧ v.rspq = u.rspq ++ [false]

/-- From a state with a canonical bit array and a ready port, ADD h1, h2 gives a next state in which ADD h1, h2 again gives a next state with the same bit array. (R105) -/
def Obligations.AddTwiceIsAddOnce : Prop :=
  ∀ (s : State) (h1 h2 : Half), Memory.wf s.bits = true → cmdReady s = true →
    ∃ t u, exec (.add h1 h2) s = .next t ∧ exec (.add h1 h2) t = .next u ∧ u.bits = t.bits

/-- From a state with a canonical bit array and a ready port, any two ADDs carried out in either order end in the same bit array. (R105) -/
def Obligations.AddsCommute : Prop :=
  ∀ (s : State) (a1 a2 b1 b2 : Half), Memory.wf s.bits = true → cmdReady s = true →
    ∃ t u t' u', exec (.add a1 a2) s = .next t ∧ exec (.add b1 b2) t = .next u ∧
      exec (.add b1 b2) s = .next t' ∧ exec (.add a1 a2) t' = .next u' ∧ u.bits = u'.bits

/-- From a state with a canonical bit array (whose length is its number of 1 bits) and a ready port, ADD h1, h2 raises that number by the count of distinct indices of (h1, h2) that were 0, which is at most the number of distinct indices, which is at most K. (R105) -/
def Obligations.AddChangesAtMostItsDistinctIndices : Prop :=
  ∀ (s : State) (h1 h2 : Half), Memory.wf s.bits = true → cmdReady s = true →
    ∃ t, exec (.add h1 h2) s = .next t ∧
      t.bits.length = s.bits.length + ((indices s.cfg h1 h2).toFinset.filter
        fun j => Memory.read s.bits j = false).card ∧
      t.bits.length ≤ s.bits.length + (indices s.cfg h1 h2).toFinset.card ∧
      (indices s.cfg h1 h2).toFinset.card ≤ s.cfg.K

/-- For M ≥ 1, idx(h1, h2, i) < M for all operands in both modes; and BSET or BTEST of such an index outside the fault state gives a next state with fault = 0. (R82) -/
def Obligations.GeneratedIndexNeverFaults : Prop :=
  ∀ (s : State) (h1 h2 : Half) (i : Nat), 1 ≤ s.cfg.M →
    idx s.cfg h1 h2 i < s.cfg.M ∧
    (s.fault = false →
      (∃ t, exec (.bset (idx s.cfg h1 h2 i)) s = .next t ∧ t.fault = false) ∧
      (∃ t, exec (.btest (idx s.cfg h1 h2 i)) s = .next t ∧ t.fault = false))

/-- The two readings of the index formula agree when h1 + i*h2 < 2^64, for all operands when M divides 2^64, and on all indices of a command when K = 1; for the reference M = 25*2^23 they differ somewhere. (R83) -/
def Obligations.ExactAndWrap64Agree : Prop :=
  (∀ (M i : Nat) (h1 h2 : Half), h1.toNat + i * h2.toNat < 2 ^ 64 →
      idxExact M h1 h2 i = idxWrap64 M h1 h2 i) ∧
    (∀ (M i : Nat) (h1 h2 : Half), M ∣ 2 ^ 64 → idxExact M h1 h2 i = idxWrap64 M h1 h2 i) ∧
    (∀ (c : Cfg) (h1 h2 : Half), c.K = 1 →
      indices { c with indexArith := .EXACT } h1 h2 =
        indices { c with indexArith := .WRAP64 } h1 h2) ∧
    (Cfg.reference.M = 25 * 2 ^ 23 ∧ ∃ (i : Nat) (h1 h2 : Half),
      idxExact Cfg.reference.M h1 h2 i ≠ idxWrap64 Cfg.reference.M h1 h2 i)

/-- EXACT indices follow idx(0) = h1 mod M, idx(i+1) = (idx(i) + h2 mod M) mod M; WRAP64 indices are s_i mod M where s_0 = h1 and s_(i+1) = s_i + h2 in 64 bits; the EXACT recurrence fails for WRAP64 at some M ≥ 1. (R87) -/
def Obligations.IndicesCanBeFormedIncrementally : Prop :=
  (∀ (M : Nat) (h1 h2 : Half), idxExact M h1 h2 0 = h1.toNat % M ∧
      ∀ i, idxExact M h1 h2 (i + 1) = (idxExact M h1 h2 i + h2.toNat % M) % M) ∧
    (∀ (M : Nat) (h1 h2 : Half) (i : Nat),
      idxWrap64 M h1 h2 i = (((fun s : Half => s + h2)^[i]) h1).toNat % M) ∧
    (∃ (M i : Nat) (h1 h2 : Half), 1 ≤ M ∧
      idxWrap64 M h1 h2 (i + 1) ≠ (idxWrap64 M h1 h2 i + h2.toNat % M) % M)

/-- For a legal configuration, the K indices of any pair have at least 1 and at most min(K, M) distinct values, and exactly one when h2 = 0: repeats are not removed. (R85) -/
def Obligations.IndexSetHasOneToMinKMMembers : Prop :=
  ∀ (c : Cfg) (h1 h2 : Half), c.Legal →
    (indices c h1 h2).length = c.K ∧ 1 ≤ (indices c h1 h2).toFinset.card ∧
    (indices c h1 h2).toFinset.card ≤ min c.K c.M ∧
    (h2 = 0 → (indices c h1 h2).toFinset.card = 1)

/-- For every permutation of the K indices of a pair, the AND of the bits is the same, and setting them leaves the same canonical bit array. (R84, R93, 93_implementation_defined.md U14) -/
def Obligations.OrderOfTheRoundsIsUnobservable : Prop :=
  ∀ (c : Cfg) (h1 h2 : Half) (m : Memory) (js : List Nat), js.Perm (indices c h1 h2) →
    hitOf m js = hitOf m (indices c h1 h2) ∧
    (Memory.wf m = true → Memory.setAll m js = Memory.setAll m (indices c h1 h2))

/-- Outside the fault state, BSETs of the in-range indices of any finite sequence J carried out in turn complete without a fault; bit k is 1 afterwards exactly when it was 1 before or k occurs in J; and any other sequence with the same members leaves the same canonical bit array. (R93) -/
def Obligations.BsetsOfASequenceSetItsBits : Prop :=
  ∀ (s : State) (js ks : List Nat), s.fault = false → (∀ j ∈ js, j < s.cfg.M) →
    (∀ k, k ∈ js ↔ k ∈ ks) →
    ∃ t u, execAll (js.map .bset) s = .next t ∧ execAll (ks.map .bset) s = .next u ∧
      t.fault = false ∧
      (∀ k, Memory.read t.bits k = true ↔ Memory.read s.bits k = true ∨ k ∈ js) ∧
      (Memory.wf s.bits = true → u.bits = t.bits)

/-- Outside the fault state and for in-range j and j', BSET j then BTEST j returns 1; BSET j does not change bit j' for j' ≠ j; and BTEST of any index, in any state, changes no bit. (R94) -/
def Obligations.BsetThenBtestReadsOne : Prop :=
  (∀ (s : State) (j j' : Nat), s.fault = false → j < s.cfg.M → j' < s.cfg.M →
      ∃ t u, exec (.bset j) s = .next t ∧ exec (.btest j) t = .next u ∧
        u.baRdata = some true ∧
        (j' ≠ j → Memory.read t.bits j' = Memory.read s.bits j')) ∧
    (∀ (s t : State) (j : Nat), exec (.btest j) s = .next t → t.bits = s.bits)

/-- Outside the fault state and for j < M, BSET j gives a next state in which BSET j again gives that very state. (R45, R91) -/
def Obligations.BsetTwiceIsBsetOnce : Prop :=
  ∀ (s : State) (j : Nat), s.fault = false → j < s.cfg.M →
    ∃ t, exec (.bset j) s = .next t ∧ exec (.bset j) t = .next t

/-- From any state with a ready port and M ≥ 1, driving IDXGEN with i = 0 .. K-1 and BSET with each index returned, on the parts' own ports, completes without a fault and leaves the bit array and responses that the one-step ADD leaves. (R2, R100, R101) -/
def Obligations.AddIsItsRounds : Prop :=
  ∀ (s : State) (h1 h2 : Half), 1 ≤ s.cfg.M → cmdReady s = true →
    ∃ t u, exec (.add h1 h2) s = .next t ∧ addRounds h1 h2 (List.range s.cfg.K) s = some u ∧
      u.bits = t.bits ∧ u.rspq = t.rspq ∧ u.fault = false ∧ t.fault = false

/-- From any state with a ready port and M ≥ 1, driving IDXGEN with i = 0 .. K-1 and BTEST with each index returned completes without a fault, and the running AND of the bits returned is the response the one-step CHECK appends. (R2, R100, R102) -/
def Obligations.CheckIsItsRounds : Prop :=
  ∀ (s : State) (h1 h2 : Half), 1 ≤ s.cfg.M → cmdReady s = true →
    ∃ t u hit, exec (.check h1 h2) s = .next t ∧
      checkRounds h1 h2 (List.range s.cfg.K) s true = some (u, hit) ∧
      t.rspq = s.rspq ++ [hit] ∧ u.bits = t.bits ∧ u.fault = false ∧ t.fault = false

/-- For every state that meets Inv (canonical bit array within M, cause and info 0 while fault = 0, only the two causes with their info, at most RSPQ_DEPTH responses, a shown index below M), a step that gives a next state gives one that meets Inv. (R24, R27, R82, R120, R123, R147) -/
def Obligations.EveryStepKeepsTheBlockInvariant : Prop :=
  ∀ s t : State, Inv s → step s = .next t → Inv t

/-- From every state, a step that gives a next state gives one with the same configuration (carried in State.cfg, log 1), resets included; so does any operation. (R23) -/
def Obligations.ConfigurationNeverChanges : Prop :=
  (∀ s t : State, step s = .next t → t.cfg = s.cfg) ∧
    (∀ (i : Instr) (s t : State), exec i s = .next t → t.cfg = s.cfg)

/-- If a step takes the block from fault = 0 to fault = 1, then either the edge could accept a word with op 2 or 3 (the word presented at it, or for a host that changed or lowered it early one it presented before, R145, log 4), with cause 1 and the op as info, or a BA word with index ≥ M was driven, with cause 2 and the index as info (an index of more than 64 bits leaves the info open, log 6). (R120, R121, R122, R125, R145) -/
def Obligations.OnlyTwoFaultsExist : Prop :=
  ∀ s t : State, step s = .next t → s.fault = false → t.fault = true →
    (∃ v : CmdWord, CouldAccept s v ∧ 2 ≤ v.toNat % 4 ∧ t.faultCause = 1 ∧
      t.faultInfo.toNat = v.toNat % 4) ∨
    (∃ (w : Nat) (rest : List Input), s.inputs = .ba w :: rest ∧ s.cfg.M ≤ w / 2 ∧
      t.faultCause = 2 ∧ (w / 2 < 2 ^ 64 → t.faultInfo.toNat = w / 2))

/-- From any state whose cause is not INDEX_RANGE, whatever else is driven, any number of steps with nothing driven on the BA port reaches only states whose cause is not INDEX_RANGE. (R121) -/
def Obligations.HostCommandsNeverRaiseIndexRange : Prop :=
  ∀ (s u : State) (n : Nat), s.faultCause ≠ 2 → (∀ x ∈ s.inputs.take n, x.isBa = false) →
    Reaches n s u → u.faultCause ≠ 2

/-- From a fault-free state with RSPQ_DEPTH responses queued and the inputs: a command word, a taken response, the same word held; two steps leave bits unchanged and the oldest response gone, and the third step is exec of the decoded word. That it is accepted at the third step, and not after some finite time as R146 says, rests on the model's inputs, in which no edge is a stall of timing (log 2, DESIGN CHOICE); that the word is then the one held is the model's heldWords (log 4, DESIGN CHOICE). (R145, R146, R147) -/
def Obligations.FullQueueStallsUntilAResponseIsTaken : Prop :=
  ∀ (s : State) (w : CmdWord) (rest : List Input), s.cfg.Buildable → s.fault = false →
    s.rspq.length = s.cfg.rspqDepth → s.heldWords = [] →
    s.inputs = .cmd w :: .rspReady :: .cmd w :: rest →
    ∃ u i, Reaches 2 s u ∧ u.bits = s.bits ∧ u.rspq = s.rspq.tail ∧ cmdReady u = true ∧
      u.heldWords = [w] ∧ decode s.cfg .cmd w.toNat = .ok i ∧
      step u = exec i ((u.setInputs rest).setHeld [])

/-- If a step of a state gives a next state, the step of the same state of a block with another LATENCY gives the same next state but for that parameter. (R5, R146) -/
def Obligations.LatencyIsUnobservable : Prop :=
  ∀ (s t : State) (n : Nat), step s = .next t →
    step (s.withLatency n) = .next (t.withLatency n)

/-- If a step of a state gives a next state, the step of that state with any other bit array gives a next state that agrees on the configuration, the fault fields, the index output, what is held and still driven (logs 2 and 4) and the number of responses, on every response that was queued before, on all responses unless the edge could accept a CHECK word, and on ba_rdata unless a BA word was driven. (R42) -/
def Obligations.BitsAreSeenOnlyThroughChecks : Prop :=
  ∀ (s t : State) (m : Memory), step s = .next t →
    ∃ t', step (s.setBits m) = .next t' ∧ t'.cfg = t.cfg ∧ t'.fault = t.fault ∧
      t'.faultCause = t.faultCause ∧ t'.faultInfo = t.faultInfo ∧ t'.igIndex = t.igIndex ∧
      t'.heldWords = t.heldWords ∧ t'.heldReady = t.heldReady ∧ t'.inputs = t.inputs ∧
      t'.draws = t.draws ∧
      t'.rspq.length = t.rspq.length ∧
      (s.rspq <+: t.rspq → s.rspq <+: t'.rspq) ∧
      ((∀ v, CouldAccept s v → v.toNat % 4 ≠ 1) → t'.rspq = t.rspq) ∧
      ((∀ w, s.inputs.head? ≠ some (.ba w)) → t'.baRdata = t.baRdata)

/-- After a step the response queue is unchanged, or one response was appended outside the fault state with room in the queue at an edge that could accept a CHECK word (op code 1: the word presented at it, or one presented before by a host that changed or lowered it early, R145, log 4), or the oldest was removed by the host at an edge with rsp_ready raised or, early, lowered (R145, log 4), or a reset emptied it. (R28, R61, R63, R124, R140, R145, R147) -/
def Obligations.ResponsesChangeOnlyByCheckTakeOrReset : Prop :=
  ∀ s t : State, step s = .next t →
    t.rspq = s.rspq ∨
    ((∃ v, CouldAccept s v ∧ v.toNat % 4 = 1) ∧ s.fault = false ∧
      s.rspq.length < s.cfg.rspqDepth ∧ ∃ hit, t.rspq = s.rspq ++ [hit]) ∨
    ((s.inputs.head? = some .rspReady ∨ s.inputs.head? = some .rspLow) ∧
      t.rspq = s.rspq.tail) ∨
    (s.inputs.head? = some .rst ∧ t.rspq = [])

/-- For every configuration of which a block exists and every state, if the next input, when there is one, is a word of its port, a reset, or cmd_valid or rsp_ready lowered or raised, the step gives a next state that has consumed it and nothing else of the inputs. That entering and staying in the fault state are next states is log 12 (DEDUCED), that part-level words are driven on the whole block is log 10 (DEDUCED), and that a step consumes one input is log 2 (DESIGN CHOICE). (R64, R69, R120, R123, R137) -/
def Obligations.EveryWordOfAPortIsStepped : Prop :=
  ∀ s : State, s.cfg.Buildable → (∀ x, s.inputs.head? = some x → x.fits s.cfg) →
    ∃ t, step s = .next t ∧ t.inputs = s.inputs.tail

/-- For M ≥ 1: every index below M fits IDX_W bits; no smaller width ≥ 1 holds them all; values M .. 2^IDX_W - 1 exist exactly when M is not a power of two or M = 1; and BSET or BTEST of one of them, outside the fault state, gives a next state with fault = 1 and cause INDEX_RANGE. (R41) -/
def Obligations.IndexWidthIsTheLeastThatHoldsTheArray : Prop :=
  ∀ c : Cfg, 1 ≤ c.M →
    c.M ≤ 2 ^ c.idxW ∧ 1 ≤ c.idxW ∧ (∀ n, 1 ≤ n → c.M ≤ 2 ^ n → c.idxW ≤ n) ∧
    ((∃ j, c.M ≤ j ∧ j < 2 ^ c.idxW) ↔ (∀ k, c.M ≠ 2 ^ k) ∨ c.M = 1) ∧
    ∀ (s : State) (j : Nat) (i : Instr), s.cfg = c → s.fault = false → c.M ≤ j →
      j < 2 ^ c.idxW → i = .bset j ∨ i = .btest j →
      ∃ t, exec i s = .next t ∧ t.fault = true ∧ t.faultCause = 2

/-- A step that sees rsp_ready = 0 consumes that input (log 2) and changes nothing when rsp_ready was not held (the model's heldReady, log 4) or no response is queued; of a host that raised rsp_ready and lowered it before it was answered, the oldest response is taken or it is not, which one being open (a free value, log 4), rsp_ready is no longer held, and nothing else changes but the count of free values drawn. (R61, R145) -/
def Obligations.LoweredRspReadyTakesTheOldestOrNone : Prop :=
  ∀ (s : State) (rest : List Input), s.cfg.Buildable → s.inputs = .rspLow :: rest →
    ∃ t, step s = .next t ∧
      (s.heldReady = false ∨ s.rspq = [] → t = s.setInputs rest) ∧
      (s.heldReady = true → ∀ b q, s.rspq = b :: q →
        (t.rspq = q ∨ t.rspq = b :: q) ∧ t.heldReady = false ∧ t.cfg = s.cfg ∧
        t.bits = s.bits ∧ t.fault = s.fault ∧ t.faultCause = s.faultCause ∧
        t.faultInfo = s.faultInfo ∧ t.baRdata = s.baRdata ∧ t.igIndex = s.igIndex ∧
        t.heldWords = s.heldWords ∧ t.inputs = rest ∧ t.draws = s.draws + 1)

/-- A step that sees cmd_valid = 0 consumes that input (log 2) and changes nothing when no word is held (the model's heldWords, log 4) or the port is not ready; of a host that lowered cmd_valid before its command was accepted, a ready port accepts nothing, or the step is exec of the decoding of one of the words presented; which of these is open (free values, log 4), and no word is held afterwards. (R60, R145, 93_implementation_defined.md U7) -/
def Obligations.LoweredCmdValidAcceptsAPresentedWordOrNone : Prop :=
  ∀ (s : State) (rest : List Input), s.cfg.Buildable → s.inputs = .cmdLow :: rest →
    (s.heldWords = [] ∨ cmdReady s = false → step s = .next (s.setInputs rest)) ∧
    (s.heldWords ≠ [] → cmdReady s = true →
      step s = .next ((s.setInputs rest).setHeld []).advanceDraws ∨
      ∃ v ∈ s.heldWords, ∃ i, decode s.cfg .cmd v.toNat = .ok i ∧
        step s = exec i ((s.setInputs rest).setHeld []).advanceDraws)
end

