-- ==== Sys2Proof/Laws/Memory.lean ====
section
/-! SUPPORT. The laws of the bit array's operations: read after write, the canonical form kept by every write, equal contents
are equal data, and what setting or testing a sequence of indices does. -/

namespace Sys2Proof.Machine

@[simp] theorem Memory.read_nil (j : Nat) : Memory.read [] j = false := rfl

@[simp] theorem Memory.read_cons (a : Nat) (b : Bit) (m : Memory) (j : Nat) :
    Memory.read ((a, b) :: m) j = if a = j then b else Memory.read m j := rfl

/-- Writing below the first listed index. -/
theorem Memory.write_below {a j : Nat} (h : j < a) (c b : Bit) (m : Memory) :
    Memory.write ((a, c) :: m) j b = if b then (j, b) :: (a, c) :: m else (a, c) :: m := by
  simp [Memory.write, h]

/-- Writing at the first listed index. -/
theorem Memory.write_at (a : Nat) (c b : Bit) (m : Memory) :
    Memory.write ((a, c) :: m) a b = if b then (a, b) :: m else m := by
  simp [Memory.write]

/-- Writing above the first listed index. -/
theorem Memory.write_above {a j : Nat} (h : a < j) (c b : Bit) (m : Memory) :
    Memory.write ((a, c) :: m) j b = (a, c) :: Memory.write m j b := by
  simp [Memory.write, show ¬j < a by omega, show ¬j = a by omega]

/-- A written 1 is read back, and every other bit is as before (R94); no canonical form is needed. -/
theorem Memory.read_write_true (m : Memory) (j k : Nat) :
    Memory.read (Memory.write m j true) k = if k = j then true else Memory.read m k := by
  induction m with
  | nil => simp [Memory.write, eq_comm]
  | cons e m ih =>
    obtain ⟨a, c⟩ := e
    rcases Nat.lt_trichotomy j a with h | rfl | h
    · simp [Memory.write_below h, eq_comm]
    · by_cases hk : k = j <;> simp [Memory.write_at, hk, show j = k ↔ k = j from eq_comm]
    · rw [Memory.write_above h, Memory.read_cons, Memory.read_cons, ih]
      by_cases hk : k = j
      · simp [hk, show ¬a = j by omega]
      · simp [hk]

/-- The bit array after reset is in canonical form, for every configuration. -/
theorem Memory.wf_resetOf (c : Cfg) : Memory.wf (State.resetOf c).bits = true := rfl

theorem Memory.wfAbove_mono {lo lo' : Nat} (h : lo' ≤ lo) {m : Memory}
    (hm : Memory.wfAbove lo m = true) : Memory.wfAbove lo' m = true := by
  cases m with
  | nil => rfl
  | cons e m =>
    simp only [Memory.wfAbove, Bool.and_eq_true, decide_eq_true_eq] at hm ⊢
    exact ⟨⟨by omega, hm.1.2⟩, hm.2⟩

/-- The canonical form of a list with a first entry. -/
theorem Memory.wf_cons (a : Nat) (b : Bit) (m : Memory) :
    Memory.wf ((a, b) :: m) = true ↔ b = true ∧ Memory.wfAbove a m = true := by
  simp [Memory.wf]

theorem Memory.wf_of_wfAbove {lo : Nat} {m : Memory} (h : Memory.wfAbove lo m = true) :
    Memory.wf m = true := by
  cases m with
  | nil => rfl
  | cons e m =>
    simp only [Memory.wfAbove, Bool.and_eq_true] at h
    simp [Memory.wf, h.1.2, h.2]

/-- No index at or below the bound is listed. -/
theorem Memory.read_of_wfAbove {lo : Nat} {m : Memory} (h : Memory.wfAbove lo m = true) {k : Nat}
    (hk : k ≤ lo) : Memory.read m k = false := by
  induction m generalizing lo with
  | nil => rfl
  | cons e m ih =>
    simp only [Memory.wfAbove, Bool.and_eq_true, decide_eq_true_eq] at h
    simp only [Memory.read, if_neg (show ¬e.1 = k by omega)]
    exact ih h.2 (by omega)

theorem Memory.wfAbove_write {lo : Nat} {m : Memory} (h : Memory.wfAbove lo m = true) {j : Nat}
    (hj : lo < j) (b : Bit) : Memory.wfAbove lo (Memory.write m j b) = true := by
  induction m generalizing lo with
  | nil => cases b <;> simp [Memory.write, Memory.wfAbove, hj]
  | cons e m ih =>
    simp only [Memory.wfAbove, Bool.and_eq_true, decide_eq_true_eq] at h
    obtain ⟨⟨h1, h2⟩, h3⟩ := h
    simp only [Memory.write]
    split_ifs with hlt hb heq hb'
    · simp [Memory.wfAbove, hj, hlt, hb, h2, h3]
    · simp [Memory.wfAbove, h1, h2, h3]
    · simp [Memory.wfAbove, h1, hb', h3]
    · exact Memory.wfAbove_mono h1.le h3
    · simp [Memory.wfAbove, h1, h2, ih h3 (show e.1 < j by omega)]

/-- Every write keeps the canonical form. -/
theorem Memory.wf_write {m : Memory} (h : Memory.wf m = true) (j : Nat) (b : Bit) :
    Memory.wf (Memory.write m j b) = true := by
  cases m with
  | nil => cases b <;> rfl
  | cons e m =>
    obtain ⟨h2, h3⟩ := (Memory.wf_cons e.1 e.2 m).mp h
    simp only [Memory.write]
    split_ifs with hlt hb heq hb'
    · simp [Memory.wf, Memory.wfAbove, hlt, hb, h2, h3]
    · simp [Memory.wf, h2, h3]
    · simp [Memory.wf, hb', h3]
    · exact Memory.wf_of_wfAbove h3
    · simp [Memory.wf, h2, Memory.wfAbove_write h3 (show e.1 < j by omega)]

/-- A written bit is read back, and every other bit is as before, in canonical form. -/
theorem Memory.read_write {m : Memory} (h : Memory.wf m = true) (j k : Nat) (b : Bit) :
    Memory.read (Memory.write m j b) k = if k = j then b else Memory.read m k := by
  cases b with
  | true => exact Memory.read_write_true m j k
  | false =>
    induction m with
    | nil => simp [Memory.write]
    | cons e m ih =>
      obtain ⟨a, c⟩ := e
      obtain ⟨h2, h3⟩ := (Memory.wf_cons a c m).mp h
      have below : ∀ i, i ≤ a → Memory.read m i = false := fun i => Memory.read_of_wfAbove h3
      rcases Nat.lt_trichotomy j a with hj | rfl | hj
      · by_cases hk : k = j
        · simp [Memory.write_below hj, hk, show ¬a = j by omega, below j (by omega)]
        · simp [Memory.write_below hj, hk]
      · by_cases hk : k = j
        · simp [Memory.write_at, hk, below j le_rfl]
        · simp [Memory.write_at, hk, show ¬j = k by omega]
      · rw [Memory.write_above hj, Memory.read_cons, Memory.read_cons,
          ih (Memory.wf_of_wfAbove h3)]
        by_cases hk : k = j
        · simp [hk, show ¬a = j by omega]
        · simp [hk]

/-- Equal contents in canonical form are equal data. -/
theorem Memory.ext_of_read {m n : Memory} (hm : Memory.wf m = true) (hn : Memory.wf n = true)
    (h : ∀ j, Memory.read m j = Memory.read n j) : m = n := by
  induction m generalizing n with
  | nil =>
    cases n with
    | nil => rfl
    | cons f n =>
      obtain ⟨h2, -⟩ := (Memory.wf_cons f.1 f.2 n).mp hn
      have := h f.1
      simp [Memory.read, h2] at this
  | cons e m ih =>
    obtain ⟨he, hem⟩ := (Memory.wf_cons e.1 e.2 m).mp hm
    cases n with
    | nil =>
      have := h e.1
      simp [Memory.read, he] at this
    | cons f n =>
      obtain ⟨hf, hfn⟩ := (Memory.wf_cons f.1 f.2 n).mp hn
      have key : e.1 = f.1 := by
        rcases Nat.lt_trichotomy e.1 f.1 with hlt | heq | hlt
        · have := h e.1
          simp [Memory.read, he, show ¬f.1 = e.1 by omega,
            Memory.read_of_wfAbove hfn hlt.le] at this
        · exact heq
        · have := h f.1
          simp [Memory.read, hf, show ¬e.1 = f.1 by omega,
            Memory.read_of_wfAbove hem hlt.le] at this
      have tails : m = n := by
        refine ih (Memory.wf_of_wfAbove hem) (Memory.wf_of_wfAbove hfn) fun j => ?_
        have := h j
        by_cases hj : j ≤ e.1
        · rw [Memory.read_of_wfAbove hem hj, Memory.read_of_wfAbove hfn (key ▸ hj)]
        · simpa [Memory.read, show ¬e.1 = j by omega, show ¬f.1 = j by omega] using this
      rw [tails, show e = f from Prod.ext key (he.trans hf.symm)]

@[simp] theorem Memory.setAll_nil (m : Memory) : Memory.setAll m [] = m := rfl

@[simp] theorem Memory.setAll_cons (m : Memory) (j : Nat) (js : List Nat) :
    Memory.setAll m (j :: js) = Memory.setAll (Memory.write m j true) js := rfl

/-- Setting a sequence of indices: `bits' = bits OR set(J)` (R93). -/
theorem Memory.read_setAll (m : Memory) (js : List Nat) (k : Nat) :
    Memory.read (Memory.setAll m js) k = (Memory.read m k || decide (k ∈ js)) := by
  induction js generalizing m with
  | nil => simp
  | cons j js ih =>
    rw [Memory.setAll_cons, ih, Memory.read_write_true]
    by_cases h : k = j <;> simp [h]

/-- Setting a sequence of indices keeps the canonical form. -/
theorem Memory.wf_setAll {m : Memory} (h : Memory.wf m = true) (js : List Nat) :
    Memory.wf (Memory.setAll m js) = true := by
  induction js generalizing m with
  | nil => exact h
  | cons j js ih => exact ih (Memory.wf_write h j true)

/-- The running AND started from a bit is that bit AND the hit bit. -/
theorem hitOf_foldl (m : Memory) (js : List Nat) (hit : Bit) :
    js.foldl (fun hit j => hit && Memory.read m j) hit = (hit && hitOf m js) := by
  unfold hitOf
  induction js generalizing hit with
  | nil => simp
  | cons j js ih =>
    rw [List.foldl_cons, List.foldl_cons, ih, ih (true && Memory.read m j)]
    cases hit <;> simp

@[simp] theorem hitOf_nil (m : Memory) : hitOf m [] = true := rfl

@[simp] theorem hitOf_cons (m : Memory) (j : Nat) (js : List Nat) :
    hitOf m (j :: js) = (Memory.read m j && hitOf m js) := by
  rw [hitOf, List.foldl_cons, hitOf_foldl, Bool.true_and]

/-- The hit bit is 1 exactly when every tested bit is 1 (R102). -/
theorem hitOf_eq_true_iff (m : Memory) (js : List Nat) :
    hitOf m js = true ↔ ∀ j ∈ js, Memory.read m j = true := by
  induction js with
  | nil => simp
  | cons j js ih => simp [ih]

end Sys2Proof.Machine
end

