-- ==== Sys2Proof/Laws/State.lean ====
section
/-! SUPPORT. One lemma per field per named update of State, true by rfl. -/

namespace Sys2Proof.Machine

/-! ### State.setBits -/

@[simp] theorem State.setBits_cfg (s : State) (m : Memory) : (s.setBits m).cfg = s.cfg := rfl
@[simp] theorem State.setBits_bits (s : State) (m : Memory) : (s.setBits m).bits = m := rfl
@[simp] theorem State.setBits_fault (s : State) (m : Memory) : (s.setBits m).fault = s.fault := rfl
@[simp] theorem State.setBits_faultCause (s : State) (m : Memory) : (s.setBits m).faultCause = s.faultCause := rfl
@[simp] theorem State.setBits_faultInfo (s : State) (m : Memory) : (s.setBits m).faultInfo = s.faultInfo := rfl
@[simp] theorem State.setBits_rspq (s : State) (m : Memory) : (s.setBits m).rspq = s.rspq := rfl
@[simp] theorem State.setBits_baRdata (s : State) (m : Memory) : (s.setBits m).baRdata = s.baRdata := rfl
@[simp] theorem State.setBits_igIndex (s : State) (m : Memory) : (s.setBits m).igIndex = s.igIndex := rfl
@[simp] theorem State.setBits_heldWords (s : State) (m : Memory) : (s.setBits m).heldWords = s.heldWords := rfl
@[simp] theorem State.setBits_heldReady (s : State) (m : Memory) : (s.setBits m).heldReady = s.heldReady := rfl
@[simp] theorem State.setBits_inputs (s : State) (m : Memory) : (s.setBits m).inputs = s.inputs := rfl
@[simp] theorem State.setBits_draws (s : State) (m : Memory) : (s.setBits m).draws = s.draws := rfl

/-! ### State.emit -/

@[simp] theorem State.emit_cfg (s : State) (b : Bit) : (s.emit b).cfg = s.cfg := rfl
@[simp] theorem State.emit_bits (s : State) (b : Bit) : (s.emit b).bits = s.bits := rfl
@[simp] theorem State.emit_fault (s : State) (b : Bit) : (s.emit b).fault = s.fault := rfl
@[simp] theorem State.emit_faultCause (s : State) (b : Bit) : (s.emit b).faultCause = s.faultCause := rfl
@[simp] theorem State.emit_faultInfo (s : State) (b : Bit) : (s.emit b).faultInfo = s.faultInfo := rfl
@[simp] theorem State.emit_rspq (s : State) (b : Bit) : (s.emit b).rspq = s.rspq ++ [b] := rfl
@[simp] theorem State.emit_baRdata (s : State) (b : Bit) : (s.emit b).baRdata = s.baRdata := rfl
@[simp] theorem State.emit_igIndex (s : State) (b : Bit) : (s.emit b).igIndex = s.igIndex := rfl
@[simp] theorem State.emit_heldWords (s : State) (b : Bit) : (s.emit b).heldWords = s.heldWords := rfl
@[simp] theorem State.emit_heldReady (s : State) (b : Bit) : (s.emit b).heldReady = s.heldReady := rfl
@[simp] theorem State.emit_inputs (s : State) (b : Bit) : (s.emit b).inputs = s.inputs := rfl
@[simp] theorem State.emit_draws (s : State) (b : Bit) : (s.emit b).draws = s.draws := rfl

/-! ### State.setRdata -/

@[simp] theorem State.setRdata_cfg (s : State) (b : Option Bit) : (s.setRdata b).cfg = s.cfg := rfl
@[simp] theorem State.setRdata_bits (s : State) (b : Option Bit) : (s.setRdata b).bits = s.bits := rfl
@[simp] theorem State.setRdata_fault (s : State) (b : Option Bit) : (s.setRdata b).fault = s.fault := rfl
@[simp] theorem State.setRdata_faultCause (s : State) (b : Option Bit) : (s.setRdata b).faultCause = s.faultCause := rfl
@[simp] theorem State.setRdata_faultInfo (s : State) (b : Option Bit) : (s.setRdata b).faultInfo = s.faultInfo := rfl
@[simp] theorem State.setRdata_rspq (s : State) (b : Option Bit) : (s.setRdata b).rspq = s.rspq := rfl
@[simp] theorem State.setRdata_baRdata (s : State) (b : Option Bit) : (s.setRdata b).baRdata = b := rfl
@[simp] theorem State.setRdata_igIndex (s : State) (b : Option Bit) : (s.setRdata b).igIndex = s.igIndex := rfl
@[simp] theorem State.setRdata_heldWords (s : State) (b : Option Bit) : (s.setRdata b).heldWords = s.heldWords := rfl
@[simp] theorem State.setRdata_heldReady (s : State) (b : Option Bit) : (s.setRdata b).heldReady = s.heldReady := rfl
@[simp] theorem State.setRdata_inputs (s : State) (b : Option Bit) : (s.setRdata b).inputs = s.inputs := rfl
@[simp] theorem State.setRdata_draws (s : State) (b : Option Bit) : (s.setRdata b).draws = s.draws := rfl

/-! ### State.setIndex -/

@[simp] theorem State.setIndex_cfg (s : State) (n : Option Nat) : (s.setIndex n).cfg = s.cfg := rfl
@[simp] theorem State.setIndex_bits (s : State) (n : Option Nat) : (s.setIndex n).bits = s.bits := rfl
@[simp] theorem State.setIndex_fault (s : State) (n : Option Nat) : (s.setIndex n).fault = s.fault := rfl
@[simp] theorem State.setIndex_faultCause (s : State) (n : Option Nat) : (s.setIndex n).faultCause = s.faultCause := rfl
@[simp] theorem State.setIndex_faultInfo (s : State) (n : Option Nat) : (s.setIndex n).faultInfo = s.faultInfo := rfl
@[simp] theorem State.setIndex_rspq (s : State) (n : Option Nat) : (s.setIndex n).rspq = s.rspq := rfl
@[simp] theorem State.setIndex_baRdata (s : State) (n : Option Nat) : (s.setIndex n).baRdata = s.baRdata := rfl
@[simp] theorem State.setIndex_igIndex (s : State) (n : Option Nat) : (s.setIndex n).igIndex = n := rfl
@[simp] theorem State.setIndex_heldWords (s : State) (n : Option Nat) : (s.setIndex n).heldWords = s.heldWords := rfl
@[simp] theorem State.setIndex_heldReady (s : State) (n : Option Nat) : (s.setIndex n).heldReady = s.heldReady := rfl
@[simp] theorem State.setIndex_inputs (s : State) (n : Option Nat) : (s.setIndex n).inputs = s.inputs := rfl
@[simp] theorem State.setIndex_draws (s : State) (n : Option Nat) : (s.setIndex n).draws = s.draws := rfl

/-! ### State.seqDrives -/

@[simp] theorem State.seqDrives_cfg (s : State) : s.seqDrives.cfg = s.cfg := rfl
@[simp] theorem State.seqDrives_bits (s : State) : s.seqDrives.bits = s.bits := rfl
@[simp] theorem State.seqDrives_fault (s : State) : s.seqDrives.fault = s.fault := rfl
@[simp] theorem State.seqDrives_faultCause (s : State) : s.seqDrives.faultCause = s.faultCause := rfl
@[simp] theorem State.seqDrives_faultInfo (s : State) : s.seqDrives.faultInfo = s.faultInfo := rfl
@[simp] theorem State.seqDrives_rspq (s : State) : s.seqDrives.rspq = s.rspq := rfl
@[simp] theorem State.seqDrives_baRdata (s : State) : s.seqDrives.baRdata = none := rfl
@[simp] theorem State.seqDrives_igIndex (s : State) : s.seqDrives.igIndex = none := rfl
@[simp] theorem State.seqDrives_heldWords (s : State) : s.seqDrives.heldWords = s.heldWords := rfl
@[simp] theorem State.seqDrives_heldReady (s : State) : s.seqDrives.heldReady = s.heldReady := rfl
@[simp] theorem State.seqDrives_inputs (s : State) : s.seqDrives.inputs = s.inputs := rfl
@[simp] theorem State.seqDrives_draws (s : State) : s.seqDrives.draws = s.draws := rfl

/-! ### State.setHeld -/

@[simp] theorem State.setHeld_cfg (s : State) (ws : List CmdWord) : (s.setHeld ws).cfg = s.cfg := rfl
@[simp] theorem State.setHeld_bits (s : State) (ws : List CmdWord) : (s.setHeld ws).bits = s.bits := rfl
@[simp] theorem State.setHeld_fault (s : State) (ws : List CmdWord) : (s.setHeld ws).fault = s.fault := rfl
@[simp] theorem State.setHeld_faultCause (s : State) (ws : List CmdWord) : (s.setHeld ws).faultCause = s.faultCause := rfl
@[simp] theorem State.setHeld_faultInfo (s : State) (ws : List CmdWord) : (s.setHeld ws).faultInfo = s.faultInfo := rfl
@[simp] theorem State.setHeld_rspq (s : State) (ws : List CmdWord) : (s.setHeld ws).rspq = s.rspq := rfl
@[simp] theorem State.setHeld_baRdata (s : State) (ws : List CmdWord) : (s.setHeld ws).baRdata = s.baRdata := rfl
@[simp] theorem State.setHeld_igIndex (s : State) (ws : List CmdWord) : (s.setHeld ws).igIndex = s.igIndex := rfl
@[simp] theorem State.setHeld_heldWords (s : State) (ws : List CmdWord) : (s.setHeld ws).heldWords = ws := rfl
@[simp] theorem State.setHeld_heldReady (s : State) (ws : List CmdWord) : (s.setHeld ws).heldReady = s.heldReady := rfl
@[simp] theorem State.setHeld_inputs (s : State) (ws : List CmdWord) : (s.setHeld ws).inputs = s.inputs := rfl
@[simp] theorem State.setHeld_draws (s : State) (ws : List CmdWord) : (s.setHeld ws).draws = s.draws := rfl

/-! ### State.setHeldReady -/

@[simp] theorem State.setHeldReady_cfg (s : State) (b : Bit) : (s.setHeldReady b).cfg = s.cfg := rfl
@[simp] theorem State.setHeldReady_bits (s : State) (b : Bit) : (s.setHeldReady b).bits = s.bits := rfl
@[simp] theorem State.setHeldReady_fault (s : State) (b : Bit) : (s.setHeldReady b).fault = s.fault := rfl
@[simp] theorem State.setHeldReady_faultCause (s : State) (b : Bit) : (s.setHeldReady b).faultCause = s.faultCause := rfl
@[simp] theorem State.setHeldReady_faultInfo (s : State) (b : Bit) : (s.setHeldReady b).faultInfo = s.faultInfo := rfl
@[simp] theorem State.setHeldReady_rspq (s : State) (b : Bit) : (s.setHeldReady b).rspq = s.rspq := rfl
@[simp] theorem State.setHeldReady_baRdata (s : State) (b : Bit) : (s.setHeldReady b).baRdata = s.baRdata := rfl
@[simp] theorem State.setHeldReady_igIndex (s : State) (b : Bit) : (s.setHeldReady b).igIndex = s.igIndex := rfl
@[simp] theorem State.setHeldReady_heldWords (s : State) (b : Bit) : (s.setHeldReady b).heldWords = s.heldWords := rfl
@[simp] theorem State.setHeldReady_heldReady (s : State) (b : Bit) : (s.setHeldReady b).heldReady = b := rfl
@[simp] theorem State.setHeldReady_inputs (s : State) (b : Bit) : (s.setHeldReady b).inputs = s.inputs := rfl
@[simp] theorem State.setHeldReady_draws (s : State) (b : Bit) : (s.setHeldReady b).draws = s.draws := rfl

/-! ### State.setInputs -/

@[simp] theorem State.setInputs_cfg (s : State) (xs : List Input) : (s.setInputs xs).cfg = s.cfg := rfl
@[simp] theorem State.setInputs_bits (s : State) (xs : List Input) : (s.setInputs xs).bits = s.bits := rfl
@[simp] theorem State.setInputs_fault (s : State) (xs : List Input) : (s.setInputs xs).fault = s.fault := rfl
@[simp] theorem State.setInputs_faultCause (s : State) (xs : List Input) : (s.setInputs xs).faultCause = s.faultCause := rfl
@[simp] theorem State.setInputs_faultInfo (s : State) (xs : List Input) : (s.setInputs xs).faultInfo = s.faultInfo := rfl
@[simp] theorem State.setInputs_rspq (s : State) (xs : List Input) : (s.setInputs xs).rspq = s.rspq := rfl
@[simp] theorem State.setInputs_baRdata (s : State) (xs : List Input) : (s.setInputs xs).baRdata = s.baRdata := rfl
@[simp] theorem State.setInputs_igIndex (s : State) (xs : List Input) : (s.setInputs xs).igIndex = s.igIndex := rfl
@[simp] theorem State.setInputs_heldWords (s : State) (xs : List Input) : (s.setInputs xs).heldWords = s.heldWords := rfl
@[simp] theorem State.setInputs_heldReady (s : State) (xs : List Input) : (s.setInputs xs).heldReady = s.heldReady := rfl
@[simp] theorem State.setInputs_inputs (s : State) (xs : List Input) : (s.setInputs xs).inputs = xs := rfl
@[simp] theorem State.setInputs_draws (s : State) (xs : List Input) : (s.setInputs xs).draws = s.draws := rfl

/-! ### State.advanceDraws -/

@[simp] theorem State.advanceDraws_cfg (s : State) : s.advanceDraws.cfg = s.cfg := rfl
@[simp] theorem State.advanceDraws_bits (s : State) : s.advanceDraws.bits = s.bits := rfl
@[simp] theorem State.advanceDraws_fault (s : State) : s.advanceDraws.fault = s.fault := rfl
@[simp] theorem State.advanceDraws_faultCause (s : State) : s.advanceDraws.faultCause = s.faultCause := rfl
@[simp] theorem State.advanceDraws_faultInfo (s : State) : s.advanceDraws.faultInfo = s.faultInfo := rfl
@[simp] theorem State.advanceDraws_rspq (s : State) : s.advanceDraws.rspq = s.rspq := rfl
@[simp] theorem State.advanceDraws_baRdata (s : State) : s.advanceDraws.baRdata = s.baRdata := rfl
@[simp] theorem State.advanceDraws_igIndex (s : State) : s.advanceDraws.igIndex = s.igIndex := rfl
@[simp] theorem State.advanceDraws_heldWords (s : State) : s.advanceDraws.heldWords = s.heldWords := rfl
@[simp] theorem State.advanceDraws_heldReady (s : State) : s.advanceDraws.heldReady = s.heldReady := rfl
@[simp] theorem State.advanceDraws_inputs (s : State) : s.advanceDraws.inputs = s.inputs := rfl
@[simp] theorem State.advanceDraws_draws (s : State) : s.advanceDraws.draws = s.draws + 1 := rfl

/-! ### raiseFault -/

@[simp] theorem raiseFault_cfg (c : BitVec 2) (v : BitVec 64) (s : State) : (raiseFault c v s).cfg = s.cfg := rfl
@[simp] theorem raiseFault_bits (c : BitVec 2) (v : BitVec 64) (s : State) : (raiseFault c v s).bits = s.bits := rfl
@[simp] theorem raiseFault_fault (c : BitVec 2) (v : BitVec 64) (s : State) : (raiseFault c v s).fault = true := rfl
@[simp] theorem raiseFault_faultCause (c : BitVec 2) (v : BitVec 64) (s : State) : (raiseFault c v s).faultCause = c := rfl
@[simp] theorem raiseFault_faultInfo (c : BitVec 2) (v : BitVec 64) (s : State) : (raiseFault c v s).faultInfo = v := rfl
@[simp] theorem raiseFault_rspq (c : BitVec 2) (v : BitVec 64) (s : State) : (raiseFault c v s).rspq = s.rspq := rfl
@[simp] theorem raiseFault_baRdata (c : BitVec 2) (v : BitVec 64) (s : State) : (raiseFault c v s).baRdata = s.baRdata := rfl
@[simp] theorem raiseFault_igIndex (c : BitVec 2) (v : BitVec 64) (s : State) : (raiseFault c v s).igIndex = s.igIndex := rfl
@[simp] theorem raiseFault_heldWords (c : BitVec 2) (v : BitVec 64) (s : State) : (raiseFault c v s).heldWords = s.heldWords := rfl
@[simp] theorem raiseFault_heldReady (c : BitVec 2) (v : BitVec 64) (s : State) : (raiseFault c v s).heldReady = s.heldReady := rfl
@[simp] theorem raiseFault_inputs (c : BitVec 2) (v : BitVec 64) (s : State) : (raiseFault c v s).inputs = s.inputs := rfl
@[simp] theorem raiseFault_draws (c : BitVec 2) (v : BitVec 64) (s : State) : (raiseFault c v s).draws = s.draws := rfl

/-! ### applyReset -/

@[simp] theorem applyReset_cfg (s : State) : (applyReset s).cfg = s.cfg := rfl
@[simp] theorem applyReset_bits (s : State) : (applyReset s).bits = [] := rfl
@[simp] theorem applyReset_fault (s : State) : (applyReset s).fault = false := rfl
@[simp] theorem applyReset_faultCause (s : State) : (applyReset s).faultCause = 0 := rfl
@[simp] theorem applyReset_faultInfo (s : State) : (applyReset s).faultInfo = 0 := rfl
@[simp] theorem applyReset_rspq (s : State) : (applyReset s).rspq = [] := rfl
@[simp] theorem applyReset_baRdata (s : State) : (applyReset s).baRdata = none := rfl
@[simp] theorem applyReset_igIndex (s : State) : (applyReset s).igIndex = none := rfl
@[simp] theorem applyReset_heldWords (s : State) : (applyReset s).heldWords = [] := rfl
@[simp] theorem applyReset_heldReady (s : State) : (applyReset s).heldReady = false := rfl
@[simp] theorem applyReset_inputs (s : State) : (applyReset s).inputs = s.inputs := rfl
@[simp] theorem applyReset_draws (s : State) : (applyReset s).draws = s.draws := rfl

/-! ### takeResponse -/

@[simp] theorem takeResponse_cfg (s : State) : (takeResponse s).cfg = s.cfg := rfl
@[simp] theorem takeResponse_bits (s : State) : (takeResponse s).bits = s.bits := rfl
@[simp] theorem takeResponse_fault (s : State) : (takeResponse s).fault = s.fault := rfl
@[simp] theorem takeResponse_faultCause (s : State) : (takeResponse s).faultCause = s.faultCause := rfl
@[simp] theorem takeResponse_faultInfo (s : State) : (takeResponse s).faultInfo = s.faultInfo := rfl
@[simp] theorem takeResponse_rspq (s : State) : (takeResponse s).rspq = s.rspq.tail := rfl
@[simp] theorem takeResponse_baRdata (s : State) : (takeResponse s).baRdata = s.baRdata := rfl
@[simp] theorem takeResponse_igIndex (s : State) : (takeResponse s).igIndex = s.igIndex := rfl
@[simp] theorem takeResponse_heldWords (s : State) : (takeResponse s).heldWords = s.heldWords := rfl
@[simp] theorem takeResponse_heldReady (s : State) : (takeResponse s).heldReady = s.heldReady := rfl
@[simp] theorem takeResponse_inputs (s : State) : (takeResponse s).inputs = s.inputs := rfl
@[simp] theorem takeResponse_draws (s : State) : (takeResponse s).draws = s.draws := rfl

/-! ### State.resetOf -/

@[simp] theorem State.resetOf_cfg (c : Cfg) : (State.resetOf c).cfg = c := rfl
@[simp] theorem State.resetOf_bits (c : Cfg) : (State.resetOf c).bits = [] := rfl
@[simp] theorem State.resetOf_fault (c : Cfg) : (State.resetOf c).fault = false := rfl
@[simp] theorem State.resetOf_faultCause (c : Cfg) : (State.resetOf c).faultCause = 0 := rfl
@[simp] theorem State.resetOf_faultInfo (c : Cfg) : (State.resetOf c).faultInfo = 0 := rfl
@[simp] theorem State.resetOf_rspq (c : Cfg) : (State.resetOf c).rspq = [] := rfl
@[simp] theorem State.resetOf_baRdata (c : Cfg) : (State.resetOf c).baRdata = none := rfl
@[simp] theorem State.resetOf_igIndex (c : Cfg) : (State.resetOf c).igIndex = none := rfl
@[simp] theorem State.resetOf_heldWords (c : Cfg) : (State.resetOf c).heldWords = [] := rfl
@[simp] theorem State.resetOf_heldReady (c : Cfg) : (State.resetOf c).heldReady = false := rfl
@[simp] theorem State.resetOf_inputs (c : Cfg) : (State.resetOf c).inputs = [] := rfl
@[simp] theorem State.resetOf_draws (c : Cfg) : (State.resetOf c).draws = 0 := rfl

end Sys2Proof.Machine
end

