-- ==== Sys2Proof/Laws/Ops.lean ====
section
/-! SUPPORT. One lemma per shared operation that says everything it can do. -/

namespace Sys2Proof.Machine

/-- The port is ready exactly outside the fault state with room for a response (R124, R147). -/
theorem cmdReady_iff (s : State) :
    cmdReady s = true ↔ s.fault = false ∧ s.rspq.length < s.cfg.rspqDepth := by
  simp [cmdReady]

/-- A command offered either takes its effect, when the port is ready, or changes nothing. -/
theorem accepted_cases {f : State → State} {s : State} {o : Host.Outcome State Fault Refusal}
    (h : accepted f s = o) :
    (cmdReady s = true ∧ o = .next (f s)) ∨ (cmdReady s = false ∧ o = .next s) := by
  subst h
  cases hr : cmdReady s <;> simp [accepted, hr]

theorem accepted_of_ready {f : State → State} {s : State} (h : cmdReady s = true) :
    accepted f s = .next (f s) := by simp [accepted, h]

theorem accepted_of_not_ready {f : State → State} {s : State} (h : cmdReady s = false) :
    accepted f s = .next s := by simp [accepted, h]

/-- An operation of the part BA is not performed, raises INDEX_RANGE, or takes its effect (R95, R121, R124). -/
theorem baOperation_cases {j : Nat} {f : State → State} {s : State}
    {o : Host.Outcome State Fault Refusal} (h : baOperation j f s = o) :
    (s.fault = true ∧ o = .next (s.setRdata none)) ∨
    (s.fault = false ∧ s.cfg.M ≤ j ∧ o = .next (raiseIndexRange j (s.setRdata none))) ∨
    (s.fault = false ∧ j < s.cfg.M ∧ o = .next (f (s.setRdata none))) := by
  subst h
  cases hf : s.fault with
  | true => simp [baOperation, hf]
  | false => rcases Nat.lt_or_ge j s.cfg.M with hj | hj <;> simp [baOperation, hf, hj, Nat.not_le.mpr, Nat.not_lt.mpr]

theorem baOperation_in_range {j : Nat} {f : State → State} {s : State} (hf : s.fault = false)
    (hj : j < s.cfg.M) : baOperation j f s = .next (f (s.setRdata none)) := by
  simp [baOperation, hf, Nat.not_le.mpr hj]

theorem baOperation_out_of_range {j : Nat} {f : State → State} {s : State} (hf : s.fault = false)
    (hj : s.cfg.M ≤ j) : baOperation j f s = .next (raiseIndexRange j (s.setRdata none)) := by
  simp [baOperation, hf, hj]

theorem baOperation_faulted {j : Nat} {f : State → State} {s : State} (hf : s.fault = true) :
    baOperation j f s = .next (s.setRdata none) := by
  simp [baOperation, hf]

/-- INDEX_RANGE of an index that fits in 64 bits is one `raiseFault` (R121). -/
theorem raiseIndexRange_narrow {j : Nat} (h : j < 2 ^ 64) (s : State) :
    raiseIndexRange j s = raiseFault causeIndexRange (BitVec.ofNat 64 j) s := by
  simp only [raiseIndexRange, zext64Index, if_pos h]

/-- INDEX_RANGE of a wider index records a free value (log 6). -/
theorem raiseIndexRange_wide {j : Nat} (h : ¬j < 2 ^ 64) (s : State) :
    raiseIndexRange j s =
      (raiseFault causeIndexRange (Config.wideFaultInfo s.draws) s).advanceDraws := by
  simp only [raiseIndexRange, zext64Index, if_neg h]

/-- What INDEX_RANGE does: the fault state with cause 2, and the index as info when it fits; `draws` moves only when it
does not fit; everything else is unchanged (R121, R123). -/
theorem raiseIndexRange_spec (j : Nat) (s : State) :
    (raiseIndexRange j s).fault = true ∧ (raiseIndexRange j s).faultCause = causeIndexRange ∧
    (j < 2 ^ 64 → (raiseIndexRange j s).faultInfo.toNat = j ∧ (raiseIndexRange j s).draws = s.draws) ∧
    (raiseIndexRange j s).cfg = s.cfg ∧ (raiseIndexRange j s).bits = s.bits ∧
    (raiseIndexRange j s).rspq = s.rspq ∧ (raiseIndexRange j s).baRdata = s.baRdata ∧
    (raiseIndexRange j s).igIndex = s.igIndex ∧ (raiseIndexRange j s).heldWords = s.heldWords ∧
    (raiseIndexRange j s).heldReady = s.heldReady ∧ (raiseIndexRange j s).inputs = s.inputs := by
  by_cases h : j < 2 ^ 64
  · rw [raiseIndexRange_narrow h]
    refine ⟨rfl, rfl, fun _ => ⟨?_, rfl⟩, rfl, rfl, rfl, rfl, rfl, rfl, rfl, rfl⟩
    rw [raiseFault_faultInfo, BitVec.toNat_ofNat, Nat.mod_eq_of_lt h]
  · rw [raiseIndexRange_wide h]
    exact ⟨rfl, rfl, fun hj => absurd hj h, rfl, rfl, rfl, rfl, rfl, rfl, rfl, rfl⟩

theorem accepted_gives_next (f : State → State) (s : State) : ∃ t, accepted f s = .next t := by
  rcases accepted_cases (f := f) (s := s) rfl with h | h <;> exact ⟨_, h.2⟩

theorem baOperation_gives_next (j : Nat) (f : State → State) (s : State) :
    ∃ t, baOperation j f s = .next t := by
  rcases baOperation_cases (j := j) (f := f) (s := s) rfl with h | h | h
  · exact ⟨_, h.2⟩
  · exact ⟨_, h.2.2⟩
  · exact ⟨_, h.2.2⟩

theorem exec_add (h1 h2 : Half) (s : State) : exec (.add h1 h2) s =
    accepted (fun s => s.seqDrives.setBits (Memory.setAll s.bits (indices s.cfg h1 h2))) s := rfl

theorem exec_check (h1 h2 : Half) (s : State) : exec (.check h1 h2) s =
    accepted (fun s => s.seqDrives.emit (hitOf s.bits (indices s.cfg h1 h2))) s := rfl

theorem exec_reserved (op : ReservedOp) (h1 h2 : Half) (s : State) :
    exec (.reserved op h1 h2) s = accepted (raiseIllegalOp op.code) s := rfl

theorem exec_bset (j : Nat) (s : State) : exec (.bset j) s =
    baOperation j (fun s => s.setBits (Memory.write s.bits j true)) s := rfl

theorem exec_btest (j : Nat) (s : State) : exec (.btest j) s =
    baOperation j (fun s => s.setRdata (some (Memory.read s.bits j))) s := rfl

theorem exec_idxgen (h1 h2 : Half) (i : Nat) (s : State) :
    exec (.idxgen h1 h2 i) s = .next (s.setIndex (some (idx s.cfg h1 h2 i))) := rfl

/-! The next state of each operation, by the conditions on the state alone. -/

theorem exec_add_of_ready {s : State} (h : cmdReady s = true) (h1 h2 : Half) :
    exec (.add h1 h2) s =
      .next (s.seqDrives.setBits (Memory.setAll s.bits (indices s.cfg h1 h2))) := by
  rw [exec_add, accepted_of_ready h]

theorem exec_check_of_ready {s : State} (h : cmdReady s = true) (h1 h2 : Half) :
    exec (.check h1 h2) s = .next (s.seqDrives.emit (hitOf s.bits (indices s.cfg h1 h2))) := by
  rw [exec_check, accepted_of_ready h]

theorem exec_reserved_of_ready {s : State} (h : cmdReady s = true) (op : ReservedOp)
    (h1 h2 : Half) : exec (.reserved op h1 h2) s = .next (raiseIllegalOp op.code s) := by
  rw [exec_reserved, accepted_of_ready h]

theorem exec_bset_in_range {s : State} {j : Nat} (hf : s.fault = false) (hj : j < s.cfg.M) :
    exec (.bset j) s = .next ((s.setRdata none).setBits (Memory.write s.bits j true)) := by
  rw [exec_bset, baOperation_in_range hf hj]
  rfl

theorem exec_btest_in_range {s : State} {j : Nat} (hf : s.fault = false) (hj : j < s.cfg.M) :
    exec (.btest j) s = .next (s.setRdata (some (Memory.read s.bits j))) := by
  rw [exec_btest, baOperation_in_range hf hj]
  rfl

theorem exec_bset_out_of_range {s : State} {j : Nat} (hf : s.fault = false) (hj : s.cfg.M ≤ j) :
    exec (.bset j) s = .next (raiseIndexRange j (s.setRdata none)) := by
  rw [exec_bset, baOperation_out_of_range hf hj]

theorem exec_btest_out_of_range {s : State} {j : Nat} (hf : s.fault = false) (hj : s.cfg.M ≤ j) :
    exec (.btest j) s = .next (raiseIndexRange j (s.setRdata none)) := by
  rw [exec_btest, baOperation_out_of_range hf hj]

theorem exec_bset_faulted {s : State} (hf : s.fault = true) (j : Nat) :
    exec (.bset j) s = .next (s.setRdata none) := by
  rw [exec_bset, baOperation_faulted hf]

theorem exec_btest_faulted {s : State} (hf : s.fault = true) (j : Nat) :
    exec (.btest j) s = .next (s.setRdata none) := by
  rw [exec_btest, baOperation_faulted hf]

/-- Every operation gives a next state: the block has no operation that ends a run. -/
theorem exec_gives_next (i : Instr) (s : State) : ∃ t, exec i s = .next t := by
  cases i with
  | add h1 h2 => rw [exec_add]; exact accepted_gives_next _ s
  | check h1 h2 => rw [exec_check]; exact accepted_gives_next _ s
  | reserved op h1 h2 => rw [exec_reserved]; exact accepted_gives_next _ s
  | bset j => rw [exec_bset]; exact baOperation_gives_next j _ s
  | btest j => rw [exec_btest]; exact baOperation_gives_next j _ s
  | idxgen h1 h2 n => exact ⟨_, rfl⟩

/-- A word of a port is carried out, or refused as too wide. -/
theorem runWord_cases {p : Port} {w : Nat} {s : State} {o : Host.Outcome State Fault Refusal}
    (h : runWord p w s = o) :
    (∃ i, decode s.cfg p w = .ok i ∧ o = exec i s) ∨
    (¬w < 2 ^ portWidth s.cfg p ∧ o = .refused (.wordTooWide p w)) := by
  unfold runWord at h
  split at h
  · exact .inl ⟨_, ‹_›, h.symm⟩
  · rename_i e he
    refine .inr ⟨fun hw => ?_, h.symm⟩
    cases p <;> simp [decode, hw] at he

/-- What a command edge can do: a command is accepted as presented, or as a draw, or it is held (R60, R145). -/
theorem commandEdge_cases {w : CmdWord} {s : State} {o : Host.Outcome State Fault Refusal}
    (h : commandEdge w s = o) :
    (cmdReady s = true ∧ (∀ v ∈ s.heldWords, v = w) ∧ o = runWord .cmd w.toNat (s.setHeld [])) ∨
    (cmdReady s = true ∧ (¬∀ v ∈ s.heldWords, v = w) ∧
      o = runWord .cmd (drawnFrom (presented s.heldWords w) w s.draws).toNat
        (s.setHeld []).advanceDraws) ∨
    (cmdReady s = false ∧ o = .next (s.setHeld (presented s.heldWords w))) := by
  subst h
  cases hr : cmdReady s with
  | false => exact .inr (.inr ⟨rfl, by simp [commandEdge, hr]⟩)
  | true =>
    have steady : s.heldWords.all (fun v => decide (v = w)) = true ↔ ∀ v ∈ s.heldWords, v = w := by
      simp
    by_cases hw : ∀ v ∈ s.heldWords, v = w
    · exact .inl ⟨rfl, hw, by rw [commandEdge, if_pos hr, if_pos (steady.mpr hw)]⟩
    · exact .inr (.inl ⟨rfl, hw, by rw [commandEdge, if_pos hr, if_neg (steady.not.mpr hw)]⟩)

/-- A word drawn from a list that is not empty is one of the list (R145). -/
theorem drawnFrom_mem {ws : List CmdWord} (h : ws ≠ []) (w : CmdWord) (n : Nat) :
    drawnFrom ws w n ∈ ws := by
  have hlt : Config.drawnWord n % ws.length < ws.length :=
    Nat.mod_lt _ (List.length_pos_iff.mpr h)
  rw [drawnFrom, List.getD_eq_getElem _ _ hlt]
  exact List.getElem_mem hlt

/-- The words presented are those held and the one at the edge. -/
theorem mem_presented {ws : List CmdWord} {w v : CmdWord} :
    v ∈ presented ws w ↔ v ∈ ws ∨ v = w := by
  unfold presented
  split
  · exact ⟨.inl, fun h => h.elim id fun e => e ▸ ‹w ∈ ws›⟩
  · simp

/-- What an edge with `cmd_valid = 0` can do: nothing, or, when the host lowered it early, accept a held word or none. -/
theorem commandLow_cases {s : State} {o : Host.Outcome State Fault Refusal} (h : commandLow s = o) :
    ((s.heldWords = [] ∨ cmdReady s = false) ∧ o = .next s) ∨
    (cmdReady s = true ∧ s.heldWords ≠ [] ∧
      (o = .next (s.setHeld []).advanceDraws ∨
        ∃ v ∈ s.heldWords, o = runWord .cmd v.toNat (s.setHeld []).advanceDraws)) := by
  subst h
  cases hw : s.heldWords with
  | nil => exact .inl ⟨.inl rfl, by simp [commandLow, hw]⟩
  | cons w ws =>
    cases hr : cmdReady s with
    | false => exact .inl ⟨.inr rfl, by simp [commandLow, hw, hr]⟩
    | true =>
      refine .inr ⟨rfl, by simp, ?_⟩
      cases hd : Config.drawnTake s.draws with
      | false => exact .inl (by simp [commandLow, hw, hr, hd])
      | true => exact .inr ⟨_, drawnFrom_mem (by simp) w s.draws, by simp [commandLow, hw, hr, hd]⟩

/-- What an edge with `rsp_ready = 1` can do: take the oldest response, or hold the asking. -/
theorem responseEdge_cases (s : State) :
    (s.rspq = [] ∧ responseEdge s = s.setHeldReady true) ∨
    (s.rspq ≠ [] ∧ responseEdge s = (takeResponse s).setHeldReady false) := by
  cases h : s.rspq <;> simp [responseEdge, rspValid, h]

/-- What an edge with `rsp_ready = 0` can do: nothing, or, when the host lowered it early, take the oldest response or
not. -/
theorem responseLow_cases (s : State) :
    ((s.rspq = [] ∨ s.heldReady = false) ∧ responseLow s = s) ∨
    (s.rspq ≠ [] ∧ s.heldReady = true ∧
      (responseLow s = ((takeResponse s).setHeldReady false).advanceDraws ∨
        responseLow s = (s.setHeldReady false).advanceDraws)) := by
  cases h : s.rspq <;> cases hr : s.heldReady <;> cases hd : Config.drawnTake s.draws <;>
    simp [responseLow, rspValid, h, hr, hd]

/-- What a step of a block can do: nothing, with nothing presented, or drive the next input. -/
theorem step_cases {s : State} {o : Host.Outcome State Fault Refusal} (h : step s = o) :
    (¬s.cfg.Buildable ∧ o = .refused .illegalConfiguration) ∨
    (s.cfg.Buildable ∧ s.inputs = [] ∧ o = .next s) ∨
    (s.cfg.Buildable ∧ ∃ x xs, s.inputs = x :: xs ∧ o = driveInput x (s.setInputs xs)) := by
  unfold step at h
  split at h
  · split at h
    · exact .inr (.inl ⟨‹_›, ‹_›, h.symm⟩)
    · exact .inr (.inr ⟨‹_›, _, _, ‹_›, h.symm⟩)
  · exact .inl ⟨‹_›, h.symm⟩

end Sys2Proof.Machine
end

