-- ==== Sys2Proof/Laws/PerInstr.lean ====
section
/-! SUPPORT. The statement made per operation: a well-formed operation's word fits its port and matches its own row of the op
code table (R68, R69). -/

namespace Sys2Proof.Laws.EncodedRow

/-- The word of the operation fits the operation's port and matches the table row of its mnemonic. -/
def Statement (i : Instr) : Prop :=
  ∀ c : Cfg, wellFormed c i = true →
    encode i < 2 ^ portWidth c (portOf i) ∧
    ∃ r ∈ tableRows, r.mnemonic = mnemonicOf i ∧ r.matches (portOf i) (encode i) = true

/-- A CMD word fits 130 bits when its op code fits 2. -/
theorem cmdWordOf_lt {op : Nat} (h : op < 4) (h1 h2 : Half) : cmdWordOf op h1 h2 < 2 ^ 130 := by
  have := h1.isLt
  have := h2.isLt
  unfold cmdWordOf
  omega

/-- The op code field of a CMD word. -/
theorem cmdWordOf_mod {op : Nat} (h : op < 4) (h1 h2 : Half) : cmdWordOf op h1 h2 % 4 = op := by
  unfold cmdWordOf
  omega

theorem and_three (w : Nat) : w &&& 3 = w % 4 := Nat.and_two_pow_sub_one_eq_mod w 2

theorem and_two {w : Nat} (h : w % 4 = 2 ∨ w % 4 = 3) : w &&& 2 = 2 := by
  rw [show w &&& 2 = (w &&& 3) &&& 2 by rw [Nat.and_assoc]; rfl, and_three]
  rcases h with h | h <;> rw [h] <;> rfl

theorem add (h1 h2 : Half) : Statement (.add h1 h2) := fun _ _ =>
  ⟨cmdWordOf_lt (by omega) h1 h2, ⟨"ADD", .cmd, 0x0, 0x3⟩, by simp [tableRows], rfl,
    by simp [TableRow.matches, portOf, encode, and_three, cmdWordOf_mod]⟩

theorem check (h1 h2 : Half) : Statement (.check h1 h2) := fun _ _ =>
  ⟨cmdWordOf_lt (by omega) h1 h2, ⟨"CHECK", .cmd, 0x1, 0x3⟩, by simp [tableRows], rfl,
    by simp [TableRow.matches, portOf, encode, and_three, cmdWordOf_mod]⟩

theorem reserved (op : ReservedOp) (h1 h2 : Half) : Statement (.reserved op h1 h2) := by
  have hop : op.code.toNat = 2 ∨ op.code.toNat = 3 := by cases op <;> simp [ReservedOp.code]
  have hlt : op.code.toNat < 4 := by omega
  exact fun _ _ =>
    ⟨cmdWordOf_lt hlt h1 h2, ⟨"reserved__ILLEGAL_OP", .cmd, 0x2, 0x2⟩, by simp [tableRows], rfl, by
      simp [TableRow.matches, portOf, encode,
        and_two (w := cmdWordOf op.code.toNat h1 h2) (by rwa [cmdWordOf_mod hlt])]⟩

theorem bset (j : Nat) : Statement (.bset j) := fun c hc => by
  have hj : j < 2 ^ c.idxW := by simpa [wellFormed] using hc
  refine ⟨?_, ⟨"BSET", .ba, 0x1, 0x1⟩, by simp [tableRows], rfl, ?_⟩
  · simp only [encode, portOf, portWidth, pow_succ]
    omega
  · simp [TableRow.matches, portOf, encode, Nat.and_one_is_mod, Nat.add_mod]

theorem btest (j : Nat) : Statement (.btest j) := fun c hc => by
  have hj : j < 2 ^ c.idxW := by simpa [wellFormed] using hc
  refine ⟨?_, ⟨"BTEST", .ba, 0x0, 0x1⟩, by simp [tableRows], rfl, ?_⟩
  · simp only [encode, portOf, portWidth, pow_succ]
    omega
  · simp [TableRow.matches, portOf, encode, Nat.and_one_is_mod]

theorem idxgen (h1 h2 : Half) (i : Nat) : Statement (.idxgen h1 h2 i) := fun c hc => by
  have hi : i < 2 ^ c.iw := by simpa [wellFormed] using hc
  have := h1.isLt
  have := h2.isLt
  refine ⟨?_, ⟨"IDXGEN", .ig, 0x0, 0x0⟩, by simp [tableRows], rfl, ?_⟩
  · simp only [encode, portOf, portWidth, pow_add]
    omega
  · simp [TableRow.matches, portOf]

end Sys2Proof.Laws.EncodedRow
end

