-- ==== Sys2Proof/Laws/Run.lean ====
section
/-! SUPPORT. Runs of the machine: one step more, and an induction over a run packaged once. -/

namespace Sys2Proof.Machine

/-- A run of no steps ends where it starts. -/
theorem reaches_zero {s u : State} : Reaches 0 s u ↔ s = u := by
  constructor
  · intro h
    cases h
    rfl
  · rintro rfl
    rfl

/-- A run of one step more, of any machine behind the interface. -/
theorem run_succ_next (M : Host.Core) (n : Nat) (s u : M.State) :
    M.run (n + 1) s = .next u ↔ ∃ t, M.step s = .next t ∧ M.run n t = .next u := by
  have unfoldRun : M.run (n + 1) s =
      match M.step s with
      | .next t => M.run n t
      | .fault r => .fault r
      | .refused r => .refused r := rfl
  rw [unfoldRun]
  cases M.step s with
  | next t => exact ⟨fun h => ⟨t, rfl, h⟩, fun ⟨_, ht, h⟩ => by cases ht; exact h⟩
  | fault r => exact ⟨(fun h => nomatch h), (fun ⟨_, ht, _⟩ => nomatch ht)⟩
  | refused r => exact ⟨(fun h => nomatch h), (fun ⟨_, ht, _⟩ => nomatch ht)⟩

/-- A run of one step more is a step and the rest of the run. -/
theorem reaches_succ {n : Nat} {s u : State} :
    Reaches (n + 1) s u ↔ ∃ t, step s = .next t ∧ Reaches n t u :=
  run_succ_next Sys2Proof.core n s u

/-- A property that every step keeps, when its input meets `Q`, holds after every run whose inputs all meet `Q`. The step
must consume its input, which `hin` says. -/
theorem run_keeps {P : State → Prop} {Q : Input → Prop}
    (hin : ∀ s t, step s = .next t → t.inputs = s.inputs.tail)
    (hstep : ∀ s t, P s → (∀ x, s.inputs.head? = some x → Q x) → step s = .next t → P t)
    {n : Nat} {s u : State} (hP : P s) (hQ : ∀ x ∈ s.inputs.take n, Q x) (h : Reaches n s u) :
    P u := by
  induction n generalizing s with
  | zero => exact reaches_zero.mp h ▸ hP
  | succ n ih =>
    obtain ⟨t, hst, htu⟩ := reaches_succ.mp h
    cases hi : s.inputs with
    | nil =>
      have ht : t.inputs = [] := by rw [hin s t hst, hi]; rfl
      exact ih (hstep s t hP (by simp [hi]) hst) (by simp [ht]) htu
    | cons x xs =>
      have ht : t.inputs = xs := by rw [hin s t hst, hi]; rfl
      rw [hi] at hQ
      refine ih (hstep s t hP (fun y hy => hQ y ?_) hst) (fun y hy => hQ y ?_) htu
      · rw [hi] at hy
        simp at hy
        simp [hy]
      · rw [ht] at hy
        simp [hy]

end Sys2Proof.Machine
end

