-- ==== Sys2Proof/Tests/Slice0.lean ====
section
/-! SUPPORT. Tests of the model against the spec's worked examples and vectors (95_test_vectors.md), the checks of WellFormed, and
for every statement with hypotheses a witness that meets them together. -/

namespace Sys2Proof.Tests

open Sys2Proof Sys2Proof.Machine

/-! ### The small states the tests use -/

/-- SMALL with room for two responses, right after reset: every command is accepted. -/
def blk : State := State.resetOf (Cfg.small 2)

/-- `blk` with the bits at these indices set. -/
def blkWith (js : List Nat) : State := blk.setBits (Memory.setAll [] js)

/-- `blk` with two responses waiting, 1 before 0: the queue is full. -/
def full : State := (blk.emit true).emit false

/-- `blk` in the fault state that op code 2 leaves, with one response waiting. -/
def faulted : State := raiseIllegalOp 2 (blk.emit true)

/-- SMALL under WRAP64 with K = 2, as in CMD-13. -/
def wrapBlk : State := State.resetOf { Cfg.small 2 with K := 2, indexArith := .WRAP64 }

/-- ONE: M = 1, K = 2. -/
def oneBlk : State := State.resetOf { Cfg.small 2 with M := 1, K := 2 }

/-- A block of 2^64 + 2 bits, whose indices have 65 bits. -/
def wideBlk : State := State.resetOf { Cfg.small 2 with M := 2 ^ 64 + 2, mMax := 2 ^ 64 + 2 }

/-- F of 95_test_vectors.md: 2^64 - 1. -/
def allOnes : Half := 0xFFFFFFFFFFFFFFFF

/-- What a step of an operation leaves, by one field. -/
def after (i : Instr) (s : State) {α : Type} (f : State → α) : Option α := (nextOf (exec i s)).map f

/-- What a step leaves, by one field. -/
def stepped (s : State) {α : Type} (f : State → α) : Option α := (nextOf (step s)).map f

/-! ### WellFormed: each check refuses an ill-formed term, and takes the boundary -/

theorem test_wellFormed_bset : wellFormed (Cfg.small 2) (.bset 16) = false := by decide
theorem test_wellFormed_btest : wellFormed (Cfg.small 2) (.btest 16) = false := by decide
theorem test_wellFormed_idxgen : wellFormed (Cfg.small 2) (.idxgen 3 4 4) = false := by decide
theorem test_wellFormed_boundary : wellFormed (Cfg.small 2) (.bset 15) = true ∧
    wellFormed (Cfg.small 2) (.btest 15) = true ∧
    wellFormed (Cfg.small 2) (.idxgen 3 4 3) = true := by decide

/-! ### Widths (the table of configurations of 95_test_vectors.md) -/

theorem test_widths_small : (Cfg.small 2).idxW = 4 ∧ (Cfg.small 2).iw = 2 := by decide
theorem test_widths_one : oneBlk.cfg.idxW = 1 ∧ oneBlk.cfg.iw = 1 := by decide
theorem test_widths_reference : Cfg.reference.idxW = 28 ∧ Cfg.reference.iw = 3 := by decide

/-! ### Decoding: each constructor's word written out from its encoding -/

/-- P1 line 1: op = 0b00, h1 = 3 in [65:2], h2 = 4 in [129:66]. -/
theorem test_decode_add :
    decode (Cfg.small 2) .cmd 0x00000000000000010000000000000000C = .ok (.add 3 4) := by decide
/-- P5 line 2, under REF: op = 0b01. -/
theorem test_decode_check :
    decode Cfg.reference .cmd 0x3FB72EA61D950C840048D159E26AF37BD =
      .ok (.check 0x0123456789ABCDEF 0xFEDCBA9876543210) := by decide
/-- P3 line 2: `.cmd 2, 0, 0`. -/
theorem test_decode_reserved2 :
    decode (Cfg.small 2) .cmd 0x000000000000000000000000000000002 = .ok (.reserved .op2 0 0) := by
  decide
/-- CMD-9: `.cmd 3, 1, 1`. -/
theorem test_decode_reserved3 :
    decode (Cfg.small 2) .cmd 0x000000000000000040000000000000007 = .ok (.reserved .op3 1 1) := by
  decide
/-- BA-5: BSET 9 is 9·2 + 1. -/
theorem test_decode_bset : decode (Cfg.small 2) .ba 0x13 = .ok (.bset 9) := by decide
/-- BA-7: BTEST 15 is 15·2. -/
theorem test_decode_btest : decode (Cfg.small 2) .ba 0x1E = .ok (.btest 15) := by decide
/-- IG word encodings, SMALL: IDXGEN 3, 4, 3. -/
theorem test_decode_idxgen :
    decode (Cfg.small 2) .ig 0x300000000000000040000000000000003 = .ok (.idxgen 3 4 3) := by decide
/-- A word of one bit more than the BA port of SMALL is no word of it. -/
theorem test_decode_too_wide : decode (Cfg.small 2) .ba 32 = .error (.wordTooWide .ba 32) := by decide
theorem test_encode_add : encode (.add 3 4) = 0x00000000000000010000000000000000C := by decide

/-! ### Operations: vectors of 95_test_vectors.md -/

/-- P1 line 1: ADD 3, 4 sets 3, 7, 1, 5. -/
theorem test_add_sets : after (.add 3 4) blk (·.bits) =
    some [(1, true), (3, true), (5, true), (7, true)] := by decide
/-- CMD-13 under WRAP64: ADD F, 1 sets 0 and 5. -/
theorem test_add_wrap64 : after (.add allOnes 1) wrapBlk (·.bits) = some [(0, true), (5, true)] := by
  decide
/-- P1 line 4: CHECK 1, 2 after ADD 3, 4 is a false positive (R106). -/
theorem test_check_false_positive :
    after (.check 1 2) (blkWith [1, 3, 5, 7]) (·.rspq) = some [true] := by decide
/-- P1 line 3: CHECK 0, 2 misses; the response goes behind the one waiting. -/
theorem test_check_miss :
    after (.check 0 2) ((blkWith [1, 3, 5, 7]).emit true) (·.rspq) = some [true, false] := by decide
/-- CMD-9: `.cmd 3, 1, 1` enters the fault state with cause 1 and info 3. -/
theorem test_reserved_faults : after (.reserved .op3 1 1) (blkWith [0])
    (fun t => (t.fault, t.faultCause, t.faultInfo, t.bits)) =
    some (true, 1, 3, [(0, true)]) := by decide
/-- CMD-10: nothing is accepted in the fault state, another reserved command neither. -/
theorem test_reserved_not_accepted :
    after (.reserved .op3 1 1) faulted (·.faultInfo) = some 2 := by decide
/-- BA-5: BSET 9, the last index. -/
theorem test_bset_last : after (.bset 9) (blkWith [7]) (·.bits) = some [(7, true), (9, true)] := by
  decide
/-- BA-6: BSET 10 raises INDEX_RANGE with info 10. -/
theorem test_bset_out_of_range : after (.bset 10) (blkWith [7, 9])
    (fun t => (t.fault, t.faultCause, t.faultInfo, t.bits)) =
    some (true, 2, 10, [(7, true), (9, true)]) := by decide
/-- BA-2 and BA-3. -/
theorem test_btest_reads : after (.btest 7) (blkWith [7]) (·.baRdata) = some (some true) ∧
    after (.btest 6) (blkWith [7]) (·.baRdata) = some (some false) := by decide
/-- BA-7: BTEST 15 raises INDEX_RANGE with info 15 and gives no result. -/
theorem test_btest_out_of_range : after (.btest 15) blk
    (fun t => (t.fault, t.faultCause, t.faultInfo, t.baRdata)) = some (true, 2, 15, none) := by decide
/-- IG-17: IDXGEN 3, 4, 3 is 5. -/
theorem test_idxgen_exact : after (.idxgen 3 4 3) blk (·.igIndex) = some (some 5) := by decide
/-- IG-4 under WRAP64: IDXGEN F, 1, 1 is 0. -/
theorem test_idxgen_wrap64 : after (.idxgen allOnes 1 1) wrapBlk (·.igIndex) = some (some 0) := by
  decide
/-- IG-9, the last two indices in both modes, under REF. -/
theorem test_idx_reference :
    idxExact 209715200 0x0123456789ABCDEF 0xFEDCBA9876543210 7 = 133770335 ∧
    idxWrap64 209715200 0x0123456789ABCDEF 0xFEDCBA9876543210 7 = 33107039 ∧
    idxExact 209715200 0x0123456789ABCDEF 0xFEDCBA9876543210 6 = 44366415 ∧
    idxWrap64 209715200 0x0123456789ABCDEF 0xFEDCBA9876543210 6 = 170195535 := by decide

/-! ### Steps -/

/-- P3 line 1 as a step: CHECK 3, 4 on the empty filter answers 0. -/
theorem test_step_command :
    stepped (blk.setInputs [.cmd 0x00000000000000010000000000000000D]) (·.rspq) = some [false] := by
  decide
/-- RST-1 from the fault state. -/
theorem test_step_reset : stepped (faulted.setInputs [.rst])
    (fun t => (t.fault, t.faultCause, t.faultInfo, t.rspq)) = some (false, 0, 0, []) := by decide
/-- The response of a CHECK before the fault is still delivered (R124). -/
theorem test_step_response_after_fault :
    stepped (faulted.setInputs [.rspReady]) (fun t => (t.rspq, t.fault)) = some ([], true) := by decide
/-- R147: a full queue accepts nothing. -/
theorem test_step_full : stepped (full.setInputs [.cmd 2]) (fun t => (t.fault, t.heldWords)) =
    some (false, [2]) := by decide
/-- R61, R145: rsp_ready raised on an empty queue takes nothing and is held; raised on a full one it is answered. -/
theorem test_step_rsp_raised :
    stepped (blk.setInputs [.rspReady]) (fun t => (t.rspq, t.heldReady)) = some ([], true) ∧
    stepped (full.setInputs [.rspReady]) (fun t => (t.rspq, t.heldReady)) = some ([false], false) := by
  decide
/-- R61, R60: rsp_ready or cmd_valid that is 0, and was not raised before, takes and accepts nothing. -/
theorem test_step_low : stepped (full.setInputs [.rspLow]) (·.rspq) = some [true, false] ∧
    stepped (blk.setInputs [.cmdLow]) (fun t => (t.rspq, t.bits)) = some ([], []) := by decide
/-- R145: a reset releases the host from the command and the rsp_ready it held. -/
theorem test_step_reset_releases :
    stepped (((full.setHeld [1]).setHeldReady true).setInputs [.rst])
      (fun t => (t.heldWords, t.heldReady)) = some ([], false) := by decide
/-- A word placed for the host runs as the first operation after reset. -/
theorem test_withFetchWord :
    stepped (State.reset.withFetchWord 136 2) (·.faultCause) = some 1 ∧
    stepped (State.reset.withFetchWord 32 1) (·.bits) = some [(0, true)] ∧
    stepped (State.reset.withFetchWord 131 5) (·.igIndex) = some (some 5) := by decide
theorem test_decodeTableWord :
    decodeTableWord 136 1 = some (.check 0 0) ∧ decodeTableWord 32 0 = some (.btest 0) ∧
    decodeTableWord 131 0 = some (.idxgen 0 0 0) := by decide

/-! ### Witnesses: for every statement with hypotheses, a state and operands that meet them together -/

theorem witness_DecodeOfEncodeIsTheOperation :
    wellFormed (Cfg.small 2) (.idxgen allOnes 4 3) = true := by decide
theorem witness_EncodeOfDecodeIsTheWord :
    decode (Cfg.small 2) .ba 31 = .ok (.bset 15) ∧
    decode (Cfg.small 2) .cmd 5 = .ok (.check 1 0) ∧
    decode (Cfg.small 2) .ig 5 = .ok (.idxgen 5 0 0) := by decide
theorem witness_EveryWordMatchesExactlyOneRow :
    2 ^ 130 - 1 < 2 ^ portWidth (Cfg.small 2) .cmd ∧ 31 < 2 ^ portWidth (Cfg.small 2) .ba ∧
    2 ^ 130 - 1 < 2 ^ portWidth (Cfg.small 2) .ig := by decide

/-- A ready block with CHECK 3, 4 presented, held steady from an earlier edge. -/
def presentedBlk : State :=
  (blk.setInputs [.cmd 0x00000000000000010000000000000000D, .rst]).setHeld
    [0x00000000000000010000000000000000D]

theorem witness_StepRunsThePresentedCommand : presentedBlk.cfg.Buildable ∧
    presentedBlk.inputs = .cmd 0x00000000000000010000000000000000D :: [.rst] ∧
    cmdReady presentedBlk = true ∧
    ∀ v ∈ presentedBlk.heldWords, v = 0x00000000000000010000000000000000D :=
  ⟨by decide, rfl, rfl, fun _ hv => List.mem_singleton.mp hv⟩
theorem witness_StepRunsThePartWord_ba : (blk.setInputs [.ba 31]).cfg.Buildable ∧
    (blk.setInputs [.ba 31]).inputs = [.ba 31] ∧
    decode (blk.setInputs [.ba 31]).cfg .ba 31 = .ok (.bset 15) := by decide
theorem witness_StepRunsThePartWord_ig : (blk.setInputs [.ig 7]).cfg.Buildable ∧
    (blk.setInputs [.ig 7]).inputs = [.ig 7] ∧
    decode (blk.setInputs [.ig 7]).cfg .ig 7 = .ok (.idxgen 7 0 0) := by decide
theorem witness_UnreadyPortHoldsTheCommand :
    (full.setInputs [.cmd 0]).cfg.Buildable ∧ (full.setInputs [.cmd 0]).inputs = [.cmd 0] ∧
    (full.setInputs [.cmd 0]).cfg.rspqDepth ≤ (full.setInputs [.cmd 0]).rspq.length ∧
    (faulted.setInputs [.cmd 0]).cfg.Buildable ∧
    (faulted.setInputs [.cmd 0]).inputs = [.cmd 0] ∧
    (faulted.setInputs [.cmd 0]).fault = true := by decide
theorem witness_AcceptedWordIsOneOfThosePresented :
    ((blk.setInputs [.cmd 1]).setHeld [5]).cfg.Buildable ∧
    ((blk.setInputs [.cmd 1]).setHeld [5]).inputs = [.cmd 1] ∧
    cmdReady ((blk.setInputs [.cmd 1]).setHeld [5]) = true ∧
    ∃ v ∈ ((blk.setInputs [.cmd 1]).setHeld [5]).heldWords, v ≠ 1 :=
  ⟨by decide, rfl, rfl, 5, List.mem_singleton.mpr rfl, by decide⟩
/-- The hypotheses of ResetSetsEveryPieceOfState and ResetDropsHeldWordsAndKeepsLaterInputs. -/
theorem witness_ResetSetsEveryPieceOfState : (faulted.setInputs [.rst, .ba 3]).cfg.Buildable ∧
    (faulted.setInputs [.rst, .ba 3]).inputs = .rst :: [.ba 3] := by decide
theorem witness_WithNoInputAllStateIsKept : faulted.cfg.Buildable ∧ faulted.inputs = [] := by decide
theorem witness_IllegalConfigurationIsRefused :
    (State.resetOf { Cfg.small 2 with M := 0 }).cfg.M = 0 ∧
    (State.resetOf { Cfg.small 2 with K := 0 }).cfg.K = 0 ∧
    (State.resetOf { Cfg.small 2 with mMax := 9 }).cfg.mMax <
      (State.resetOf { Cfg.small 2 with mMax := 9 }).cfg.M := by decide
theorem witness_ResponsesAreTakenOldestFirst : (full.setInputs [.rspReady]).cfg.Buildable ∧
    (full.setInputs [.rspReady]).inputs = [.rspReady] ∧
    (full.setInputs [.rspReady]).rspq = true :: [false] ∧
    (blk.setInputs [.rspReady]).cfg.Buildable ∧ (blk.setInputs [.rspReady]).inputs = [.rspReady] ∧
    (blk.setInputs [.rspReady]).rspq = [] := by decide

/-- The hypotheses of AddSetsExactlyItsBits, CheckAppendsTheAndOfItsBits and ReservedOpRaisesIllegalOp, with one place left
in the queue. -/
theorem witness_accepted_commands : (blk.emit true).fault = false ∧
    (blk.emit true).rspq.length < (blk.emit true).cfg.rspqDepth ∧ 1 ≤ (blk.emit true).cfg.M := by
  decide
/-- The hypotheses of BsetMarksOneBit and BtestReadsOneBit, at the boundaries of each clause. -/
theorem witness_bit_operations : blk.fault = false ∧ 9 < blk.cfg.M ∧ blk.cfg.M ≤ 10 ∧
    10 < 2 ^ 64 ∧ blk.cfg.M ≤ 2 ^ 64 - 1 ∧ 2 ^ 64 - 1 < 2 ^ 64 := by decide
theorem witness_WideIndexFaultsWithOpenInfo : wideBlk.fault = false ∧
    wideBlk.cfg.M ≤ 2 ^ 64 + 2 ∧ 2 ^ 64 ≤ 2 ^ 64 + 2 ∧ wideBlk.cfg.Legal := by decide
theorem witness_IdxgenGivesTheIndex : blk.cfg.indexArith = .EXACT ∧
    wrapBlk.cfg.indexArith = .WRAP64 ∧ 1 ≤ wrapBlk.cfg.M := by decide
theorem witness_FrameOfFilterCommands :
    exec (.add 3 4) blk =
      .next (blk.seqDrives.setBits [(1, true), (3, true), (5, true), (7, true)]) ∧
    exec (.check 3 4) blk = .next (blk.seqDrives.emit false) ∧
    exec (.reserved .op2 3 4) blk = .next (raiseIllegalOp 2 blk) := ⟨rfl, rfl, rfl⟩
theorem witness_FrameOfBitArrayOperations :
    exec (.bset 9) blk = .next (blk.setBits [(9, true)]) ∧
    exec (.btest 10) blk = .next (raiseIndexRange 10 blk) ∧
    exec (.bset 9) faulted = .next faulted := ⟨rfl, rfl, rfl⟩
theorem witness_CommandTurnedAwayChangesNothing : faulted.fault = true ∧
    full.cfg.rspqDepth ≤ full.rspq.length := by decide
theorem witness_FaultStatePerformsNoBitArrayOperation : faulted.fault = true := by decide
theorem witness_OnlyResetLeavesTheFaultState :
    step (faulted.setInputs [.rspReady]) = .next ((takeResponse faulted).setInputs []) ∧
    (faulted.setInputs [.rspReady]).fault = true ∧
    (faulted.setInputs [.rspReady]).inputs.head? ≠ some .rst := ⟨rfl, rfl, by decide⟩
theorem witness_BitsOnlyGrowBetweenResets :
    step ((blkWith [3]).setInputs [.ba 3]) = .next (blkWith [1, 3]) ∧
    ((blkWith [3]).setInputs [.ba 3]).inputs.head? ≠ some .rst ∧
    Memory.read ((blkWith [3]).setInputs [.ba 3]).bits 3 = true := ⟨rfl, by decide, rfl⟩

/-- ADD 3, 4 carried out on a block with a CHECK and a taken response still to be driven. -/
def addedBlk : State := (blkWith [1, 3, 5, 7]).setInputs [.cmd 1, .rspReady]

theorem witness_NoFalseNegatives :
    cmdReady (blk.setInputs [.cmd 1, .rspReady]) = true ∧
    exec (.add 3 4) (blk.setInputs [.cmd 1, .rspReady]) = .next addedBlk ∧
    NoReset 2 addedBlk ∧ Reaches 2 addedBlk (blkWith [1, 3, 5, 7]) ∧
    cmdReady (blkWith [1, 3, 5, 7]) = true := by
  refine ⟨rfl, rfl, ?_, rfl, rfl⟩
  unfold NoReset
  decide
theorem witness_AHitStaysAHitUntilReset :
    cmdReady addedBlk = true ∧ exec (.check 3 4) addedBlk = .next (addedBlk.emit true) ∧
    (addedBlk.emit true).rspq = addedBlk.rspq ++ [true] ∧ NoReset 2 (addedBlk.emit true) ∧
    Reaches 2 (addedBlk.emit true) ((blkWith [1, 3, 5, 7]).emit false) ∧
    cmdReady ((blkWith [1, 3, 5, 7]).emit false) = true := by
  refine ⟨rfl, rfl, rfl, ?_, rfl, rfl⟩
  unfold NoReset
  decide
theorem witness_CheckAnswerDependsOnItsBitsAlone :
    cmdReady (blkWith [1, 3, 5, 7]) = true ∧ cmdReady ((blkWith [1, 2, 3, 5, 7]).emit true) = true ∧
    (blkWith [1, 3, 5, 7]).cfg = ((blkWith [1, 2, 3, 5, 7]).emit true).cfg ∧
    ∀ i, i < (blkWith [1, 3, 5, 7]).cfg.K →
      Memory.read (blkWith [1, 3, 5, 7]).bits (idx (blkWith [1, 3, 5, 7]).cfg 3 4 i) =
        Memory.read ((blkWith [1, 2, 3, 5, 7]).emit true).bits
          (idx (blkWith [1, 3, 5, 7]).cfg 3 4 i) := by
  refine ⟨rfl, rfl, rfl, ?_⟩
  decide
theorem witness_EmptyFilterAnswersZero :
    (blk.setInputs [.cmd 1, .ba 2]).cfg.Legal ∧ Empty (blk.setInputs [.cmd 1, .ba 2]) ∧
    (∀ v ∈ (blk.setInputs [.cmd 1, .ba 2]).heldWords, (Input.cmd v).setsBits = false) ∧
    (∀ x ∈ (blk.setInputs [.cmd 1, .ba 2]).inputs.take 2, x.setsBits = false) ∧
    Reaches 2 (blk.setInputs [.cmd 1, .ba 2]) ((blk.emit false).setRdata (some false)) ∧
    cmdReady ((blk.emit false).setRdata (some false)) = true :=
  ⟨by decide, fun _ => rfl, fun _ hv => absurd hv List.not_mem_nil, by decide, rfl, rfl⟩
/-- The hypotheses of AddTwiceIsAddOnce, AddsCommute and AddChangesAtMostItsDistinctIndices. -/
theorem witness_add_laws : Memory.wf (blkWith [9, 3]).bits = true ∧
    cmdReady (blkWith [9, 3]) = true := by decide
theorem witness_GeneratedIndexNeverFaults : 1 ≤ oneBlk.cfg.M ∧ oneBlk.fault = false := by decide
theorem witness_ExactAndWrap64Agree :
    allOnes.toNat + 1 * (0 : Half).toNat < 2 ^ 64 ∧ 16 ∣ 2 ^ 64 ∧
    { Cfg.small 2 with K := 1 }.K = 1 := by decide
theorem witness_IndexSetHasOneToMinKMMembers : (Cfg.small 2).Legal ∧ (0 : Half) = 0 := by decide
theorem witness_OrderOfTheRoundsIsUnobservable :
    [1, 3, 5, 7].Perm (indices (Cfg.small 2) 3 4) ∧ Memory.wf [(3, true)] = true := by decide
theorem witness_BsetsOfASequenceSetItsBits : blk.fault = false ∧
    (∀ j ∈ [9, 0, 9], j < blk.cfg.M) ∧ (∀ k, k ∈ [9, 0, 9] ↔ k ∈ [0, 9]) ∧
    Memory.wf blk.bits = true := by
  refine ⟨rfl, by decide, fun k => ?_, rfl⟩
  simp only [List.mem_cons, List.not_mem_nil, or_false]
  omega
/-- The hypotheses of BsetThenBtestReadsOne and BsetTwiceIsBsetOnce, at the ends of the array. -/
theorem witness_bset_laws : blk.fault = false ∧ 9 < blk.cfg.M ∧ 0 < blk.cfg.M ∧ 0 ≠ 9 ∧
    exec (.btest 3) blk = .next (blk.setRdata (some false)) :=
  ⟨rfl, by decide, by decide, by decide, rfl⟩
/-- The hypotheses of AddIsItsRounds and CheckIsItsRounds. -/
theorem witness_rounds : 1 ≤ oneBlk.cfg.M ∧ cmdReady oneBlk = true := by decide

/-- A block with every part of its invariant in use: bits set, a fault with its info, a response and an index shown. -/
def busyBlk : State := (faulted.setBits [(3, true), (9, true)]).setIndex (some 9)

theorem witness_EveryStepKeepsTheBlockInvariant :
    Inv busyBlk ∧ step (busyBlk.setInputs [.rspReady]) = .next (takeResponse busyBlk) := by
  refine ⟨⟨rfl, fun j hj => ?_, by decide, fun _ => .inl (by decide), by decide, fun n hn => ?_⟩, rfl⟩
  · have h : 10 ≤ j := hj
    show Memory.read [(3, true), (9, true)] j = false
    simp only [Memory.read, show ¬3 = j by omega, show ¬9 = j by omega, if_false]
  · have h : 9 = n := Option.some.inj hn
    subst h
    decide
theorem witness_ConfigurationNeverChanges :
    step (blk.setInputs [.rst]) = .next blk ∧
    exec (.add 0 0) blk = .next (blk.setBits [(0, true)]) := ⟨rfl, rfl⟩
theorem witness_OnlyTwoFaultsExist :
    (step (blk.setInputs [.cmd 2]) = .next (raiseIllegalOp 2 blk) ∧
      (blk.setInputs [.cmd 2]).fault = false ∧ (raiseIllegalOp 2 blk).fault = true) ∧
    (step (blk.setInputs [.ba 21]) = .next (raiseIndexRange 10 blk) ∧
      (blk.setInputs [.ba 21]).fault = false ∧ (raiseIndexRange 10 blk).fault = true) :=
  ⟨⟨rfl, rfl, rfl⟩, ⟨rfl, rfl, rfl⟩⟩
theorem witness_HostCommandsNeverRaiseIndexRange :
    (blk.setInputs [.cmd 2]).faultCause ≠ 2 ∧
    (∀ x ∈ (blk.setInputs [.cmd 2]).inputs.take 1, x.isBa = false) ∧
    Reaches 1 (blk.setInputs [.cmd 2]) (raiseIllegalOp 2 blk) := ⟨by decide, by decide, rfl⟩
theorem witness_FullQueueStallsUntilAResponseIsTaken :
    (full.setInputs [.cmd 1, .rspReady, .cmd 1]).cfg.Buildable ∧
    (full.setInputs [.cmd 1, .rspReady, .cmd 1]).fault = false ∧
    (full.setInputs [.cmd 1, .rspReady, .cmd 1]).rspq.length =
      (full.setInputs [.cmd 1, .rspReady, .cmd 1]).cfg.rspqDepth ∧
    (full.setInputs [.cmd 1, .rspReady, .cmd 1]).heldWords = [] := by decide
/-- The hypotheses of each clause of LoweredRspReadyTakesTheOldestOrNone: not held, nothing queued, and lowered early. -/
theorem witness_LoweredRspReadyTakesTheOldestOrNone :
    (full.setInputs [.rspLow]).cfg.Buildable ∧ (full.setInputs [.rspLow]).inputs = [.rspLow] ∧
    (full.setInputs [.rspLow]).heldReady = false ∧
    ((blk.setHeldReady true).setInputs [.rspLow]).rspq = [] ∧
    ((full.setHeldReady true).setInputs [.rspLow]).heldReady = true ∧
    ((full.setHeldReady true).setInputs [.rspLow]).rspq = true :: [false] := by decide
/-- The hypotheses of each clause of LoweredCmdValidAcceptsAPresentedWordOrNone: no word held, a port that is not ready, and
lowered early. -/
theorem witness_LoweredCmdValidAcceptsAPresentedWordOrNone :
    (blk.setInputs [.cmdLow]).cfg.Buildable ∧ (blk.setInputs [.cmdLow]).inputs = [.cmdLow] ∧
    (blk.setInputs [.cmdLow]).heldWords = [] ∧
    cmdReady ((full.setHeld [5]).setInputs [.cmdLow]) = false ∧
    ((blk.setHeld [5]).setInputs [.cmdLow]).heldWords ≠ [] ∧
    cmdReady ((blk.setHeld [5]).setInputs [.cmdLow]) = true := by decide
/-- The hypothesis of LatencyIsUnobservable, BitsAreSeenOnlyThroughChecks and ResponsesChangeOnlyByCheckTakeOrReset, for each kind
of input. -/
theorem witness_steps :
    step (blk.setInputs [.cmd 1]) = .next (blk.emit false) ∧
    step (full.setInputs [.rspReady]) = .next (takeResponse full) ∧
    step (blk.setInputs [.ba 2]) = .next (blk.setRdata (some false)) ∧
    step (blk.setInputs [.ig 7]) = .next (blk.setIndex (some 7)) ∧
    step (full.setInputs [.rst]) = .next blk ∧
    step (blk.setInputs [.cmdLow]) = .next blk ∧
    step (full.setInputs [.rspLow]) = .next full := ⟨rfl, rfl, rfl, rfl, rfl, rfl, rfl⟩
theorem witness_EveryWordOfAPortIsStepped : (blk.setInputs [.ba 31]).cfg.Buildable ∧
    ∀ x, (blk.setInputs [.ba 31]).inputs.head? = some x →
      x.fits (blk.setInputs [.ba 31]).cfg := by
  refine ⟨by decide, fun x hx => ?_⟩
  have h : Input.ba 31 = x := Option.some.inj hx
  subst h
  show 31 < 2 ^ portWidth (Cfg.small 2) .ba
  decide
theorem witness_IndexWidthIsTheLeastThatHoldsTheArray : 1 ≤ (Cfg.small 2).M ∧
    blk.cfg = Cfg.small 2 ∧ blk.fault = false ∧ (Cfg.small 2).M ≤ 10 ∧
    15 < 2 ^ (Cfg.small 2).idxW ∧ oneBlk.cfg.M ≤ 1 ∧ 1 < 2 ^ oneBlk.cfg.idxW := by decide

end Sys2Proof.Tests
end

/-! Family 00_scope: the commands against their rounds (R2, R100), and LATENCY, on which no step depends (R146). -/

namespace Sys2Proof.Machine

/-! ### What a step is, by what is driven next -/

theorem step_of_not_buildable {s : State} (hb : ¬s.cfg.Buildable) :
    step s = .refused .illegalConfiguration := if_neg hb

theorem step_of_no_input {s : State} (hb : s.cfg.Buildable) (hi : s.inputs = []) :
    step s = .next s := by
  rw [step, if_pos hb, hi]

theorem step_of_input {s : State} (hb : s.cfg.Buildable) {x : Input} {xs : List Input}
    (hi : s.inputs = x :: xs) : step s = driveInput x (s.setInputs xs) := by
  rw [step, if_pos hb, hi]

/-! ### The commands and their rounds -/

/-- A generated index is in the array, in both modes (R82). -/
theorem idx_lt_M {c : Cfg} (hM : 1 ≤ c.M) (h1 h2 : Half) (i : Nat) : idx c h1 h2 i < c.M := by
  unfold idx
  split
  · exact Nat.mod_lt _ hM
  · exact Nat.mod_lt _ hM

/-- One round of ADD completes: IDXGEN shows the index, which BSET accepts since it is in the array. -/
theorem addRound_eq {s : State} (hf : s.fault = false) (hM : 1 ≤ s.cfg.M) (h1 h2 : Half) (i : Nat) :
    addRound h1 h2 i s =
      some (((s.setIndex (some (idx s.cfg h1 h2 i))).setRdata none).setBits
        (Memory.write s.bits (idx s.cfg h1 h2 i) true)) := by
  have hset := exec_bset_in_range (s := s.setIndex (some (idx s.cfg h1 h2 i))) hf
    (idx_lt_M hM h1 h2 i)
  simp [addRound, exec_idxgen, nextOf, hset]

/-- A fault-free round leaves a fault-free state of the same configuration, so every later round completes too. -/
theorem addRounds_spec {s : State} (hf : s.fault = false) (hM : 1 ≤ s.cfg.M) (h1 h2 : Half)
    (is : List Nat) :
    ∃ u, addRounds h1 h2 is s = some u ∧
      u.bits = Memory.setAll s.bits (is.map (idx s.cfg h1 h2)) ∧
      u.rspq = s.rspq ∧ u.fault = false := by
  induction is generalizing s with
  | nil => exact ⟨s, rfl, rfl, rfl, hf⟩
  | cons i is ih =>
    obtain ⟨u, hu, hbits, hrspq, hfault⟩ :=
      ih (s := ((s.setIndex (some (idx s.cfg h1 h2 i))).setRdata none).setBits
        (Memory.write s.bits (idx s.cfg h1 h2 i) true)) hf hM
    refine ⟨u, ?_, hbits, hrspq, hfault⟩
    rw [addRounds, addRound_eq hf hM]
    exact hu

/-- One round of CHECK completes: IDXGEN shows the index, which BTEST accepts since it is in the array. -/
theorem checkRound_eq {s : State} (hf : s.fault = false) (hM : 1 ≤ s.cfg.M) (h1 h2 : Half)
    (i : Nat) :
    checkRound h1 h2 i s =
      some ((s.setIndex (some (idx s.cfg h1 h2 i))).setRdata
        (some (Memory.read s.bits (idx s.cfg h1 h2 i))), Memory.read s.bits (idx s.cfg h1 h2 i)) := by
  have htest := exec_btest_in_range (s := s.setIndex (some (idx s.cfg h1 h2 i))) hf
    (idx_lt_M hM h1 h2 i)
  simp [checkRound, exec_idxgen, nextOf, htest]

/-- A round of CHECK changes no bit, so every round tests the bits that the command found; the running AND may start
from any bit, which the induction needs. -/
theorem checkRounds_spec {s : State} (hf : s.fault = false) (hM : 1 ≤ s.cfg.M) (h1 h2 : Half)
    (is : List Nat) (hit : Bit) :
    ∃ u, checkRounds h1 h2 is s hit =
        some (u, hit && hitOf s.bits (is.map (idx s.cfg h1 h2))) ∧
      u.bits = s.bits ∧ u.fault = false := by
  induction is generalizing s hit with
  | nil => exact ⟨s, by simp [checkRounds], rfl, hf⟩
  | cons i is ih =>
    obtain ⟨u, hu, hbits, hfault⟩ :=
      ih (s := (s.setIndex (some (idx s.cfg h1 h2 i))).setRdata
          (some (Memory.read s.bits (idx s.cfg h1 h2 i)))) hf hM
        (hit && Memory.read s.bits (idx s.cfg h1 h2 i))
    refine ⟨u, ?_, hbits, hfault⟩
    rw [checkRounds, checkRound_eq hf hM, List.map_cons, hitOf_cons, ← Bool.and_assoc]
    exact hu

/-- Settles O43: the rounds of ADD set the same list of indices in the same order as the one step. -/
theorem addIsItsRounds : Obligations.AddIsItsRounds := by
  unfold Obligations.AddIsItsRounds
  intro s h1 h2 hM hready
  have hf : s.fault = false := ((cmdReady_iff s).mp hready).1
  obtain ⟨u, hu, hbits, hrspq, hfault⟩ := addRounds_spec hf hM h1 h2 (List.range s.cfg.K)
  exact ⟨_, u, exec_add_of_ready hready h1 h2, hu, hbits, hrspq, hfault, hf⟩

/-- Settles O44: the running AND of the rounds, started from 1, is the hit bit of the one step. -/
theorem checkIsItsRounds : Obligations.CheckIsItsRounds := by
  unfold Obligations.CheckIsItsRounds
  intro s h1 h2 hM hready
  have hf : s.fault = false := ((cmdReady_iff s).mp hready).1
  obtain ⟨u, hu, hbits, hfault⟩ := checkRounds_spec hf hM h1 h2 (List.range s.cfg.K) true
  rw [Bool.true_and] at hu
  exact ⟨_, u, _, exec_check_of_ready hready h1 h2, hu, rfl, hbits, hfault, hf⟩

/-! ### A block with another LATENCY (R146)

Each operation commutes with `State.withLatency`. The named updates, the port conditions and the decoder do so by
definition, since none of them reads the parameter. -/

/-- The same outcome for a block with another LATENCY: a next state is that of the other block; a refusal is the same. -/
def outcomeWithLatency (n : Nat) :
    Host.Outcome State Fault Refusal → Host.Outcome State Fault Refusal
  | .next s => .next (s.withLatency n)
  | .fault r => .fault r
  | .refused r => .refused r

@[simp] theorem outcomeWithLatency_next (n : Nat) (s : State) :
    outcomeWithLatency n (.next s) = .next (s.withLatency n) := rfl

@[simp] theorem outcomeWithLatency_refused (n : Nat) (r : Refusal) :
    outcomeWithLatency n (.refused r) = .refused r := rfl

@[simp] theorem State.withLatency_heldWords (s : State) (n : Nat) :
    (s.withLatency n).heldWords = s.heldWords := rfl

@[simp] theorem State.withLatency_heldReady (s : State) (n : Nat) :
    (s.withLatency n).heldReady = s.heldReady := rfl

@[simp] theorem State.withLatency_draws (s : State) (n : Nat) :
    (s.withLatency n).draws = s.draws := rfl

@[simp] theorem rspValid_withLatency (s : State) (n : Nat) :
    rspValid (s.withLatency n) = rspValid s := rfl

@[simp] theorem cmdReady_withLatency (s : State) (n : Nat) :
    cmdReady (s.withLatency n) = cmdReady s := rfl

@[simp] theorem decode_withLatency (s : State) (n : Nat) (p : Port) (w : Nat) :
    decode (s.withLatency n).cfg p w = decode s.cfg p w := rfl

theorem raiseIndexRange_withLatency (j : Nat) (s : State) (n : Nat) :
    raiseIndexRange j (s.withLatency n) = (raiseIndexRange j s).withLatency n := by
  by_cases h : j < 2 ^ 64
  · simp only [raiseIndexRange_narrow h]; rfl
  · simp only [raiseIndexRange_wide h]; rfl

/-- A command's acceptance commutes with a change of LATENCY when its effect does. -/
theorem accepted_withLatency {f : State → State} {s : State} {n : Nat}
    (hf : f (s.withLatency n) = (f s).withLatency n) :
    accepted f (s.withLatency n) = outcomeWithLatency n (accepted f s) := by
  cases hr : cmdReady s with
  | true => simp [accepted_of_ready, hr, hf]
  | false => simp [accepted_of_not_ready, hr]

/-- An operation of the part BA commutes with a change of LATENCY when its effect does. -/
theorem baOperation_withLatency {f : State → State} {s : State} {n : Nat} (j : Nat)
    (hf : f ((s.setRdata none).withLatency n) = (f (s.setRdata none)).withLatency n) :
    baOperation j f (s.withLatency n) = outcomeWithLatency n (baOperation j f s) := by
  rcases baOperation_cases (j := j) (f := f) (s := s) rfl with
    ⟨hfault, ho⟩ | ⟨hfault, hj, ho⟩ | ⟨hfault, hj, ho⟩
  · rw [ho, baOperation_faulted (s := s.withLatency n) hfault]; rfl
  · rw [ho, baOperation_out_of_range (s := s.withLatency n) hfault hj, outcomeWithLatency_next,
      ← raiseIndexRange_withLatency]
    rfl
  · rw [ho, baOperation_in_range (s := s.withLatency n) hfault hj, outcomeWithLatency_next, ← hf]
    rfl

theorem exec_withLatency (i : Instr) (s : State) (n : Nat) :
    exec i (s.withLatency n) = outcomeWithLatency n (exec i s) := by
  cases i with
  | add h1 h2 =>
    rw [exec_add, exec_add]
    exact accepted_withLatency (by rfl)
  | check h1 h2 =>
    rw [exec_check, exec_check]
    exact accepted_withLatency (by rfl)
  | reserved op h1 h2 =>
    rw [exec_reserved, exec_reserved]
    exact accepted_withLatency (by rfl)
  | bset j =>
    rw [exec_bset, exec_bset]
    exact baOperation_withLatency j (by rfl)
  | btest j =>
    rw [exec_btest, exec_btest]
    exact baOperation_withLatency j (by rfl)
  | idxgen h1 h2 i => rfl

theorem runWord_withLatency (p : Port) (w : Nat) (s : State) (n : Nat) :
    runWord p w (s.withLatency n) = outcomeWithLatency n (runWord p w s) := by
  cases h : decode s.cfg p w with
  | ok i => simp [runWord, h, exec_withLatency]
  | error e => simp [runWord, h]

theorem commandEdge_withLatency (w : CmdWord) (s : State) (n : Nat) :
    commandEdge w (s.withLatency n) = outcomeWithLatency n (commandEdge w s) := by
  simp only [commandEdge, cmdReady_withLatency, apply_ite (outcomeWithLatency n),
    ← runWord_withLatency]
  rfl

theorem commandLow_withLatency (s : State) (n : Nat) :
    commandLow (s.withLatency n) = outcomeWithLatency n (commandLow s) := by
  cases hw : s.heldWords with
  | nil => simp [commandLow, hw]
  | cons w ws =>
    simp only [commandLow, State.withLatency_heldWords, hw, cmdReady_withLatency,
      apply_ite (outcomeWithLatency n), ← runWord_withLatency]
    rfl

theorem responseEdge_withLatency (s : State) (n : Nat) :
    responseEdge (s.withLatency n) = (responseEdge s).withLatency n := by
  cases hv : rspValid s with
  | true => simp only [responseEdge, rspValid_withLatency, hv]; rfl
  | false => simp only [responseEdge, rspValid_withLatency, hv]; rfl

theorem responseLow_withLatency (s : State) (n : Nat) :
    responseLow (s.withLatency n) = (responseLow s).withLatency n := by
  cases hv : rspValid s && s.heldReady with
  | false => simp [responseLow, hv]
  | true =>
    simp only [responseLow, rspValid_withLatency, State.withLatency_heldReady, hv]
    cases hd : Config.drawnTake s.draws with
    | true => simp only [State.withLatency_draws, hd]; rfl
    | false => simp only [State.withLatency_draws, hd]; rfl

theorem driveInput_withLatency (x : Input) (s : State) (n : Nat) :
    driveInput x (s.withLatency n) = outcomeWithLatency n (driveInput x s) := by
  cases x with
  | rst => rfl
  | cmd w => exact commandEdge_withLatency w s n
  | cmdLow => exact commandLow_withLatency s n
  | rspReady => exact congrArg Host.Outcome.next (responseEdge_withLatency s n)
  | rspLow => exact congrArg Host.Outcome.next (responseLow_withLatency s n)
  | ba w => exact runWord_withLatency .ba w s n
  | ig w => exact runWord_withLatency .ig w s n

theorem step_withLatency (s : State) (n : Nat) :
    step (s.withLatency n) = outcomeWithLatency n (step s) := by
  rcases step_cases (s := s) rfl with ⟨hb, ho⟩ | ⟨hb, hi, ho⟩ | ⟨hb, x, xs, hi, ho⟩
  · rw [ho, step_of_not_buildable (s := s.withLatency n) hb, outcomeWithLatency_refused]
  · rw [ho, step_of_no_input (s := s.withLatency n) hb hi, outcomeWithLatency_next]
  · rw [ho, step_of_input (s := s.withLatency n) hb hi, ← driveInput_withLatency]
    rfl

/-- Settles O50: every operation that a step is made of commutes with a change of LATENCY. -/
theorem latencyIsUnobservable : Obligations.LatencyIsUnobservable := by
  unfold Obligations.LatencyIsUnobservable
  intro s t n h
  rw [step_withLatency, h, outcomeWithLatency_next]

end Sys2Proof.Machine

/-! Family 10_state: what a step can do to the state of the block, and the invariant, the configuration, the bits and the
responses along every step. -/

namespace Sys2Proof.Machine

/-! ### Decoded operations -/

/-- A decoded operation is the one its port's format gives (R68, R69). -/
theorem decode_cases {c : Cfg} {p : Port} {w : Nat} {i : Instr} (h : decode c p w = .ok i) :
    (p = .cmd ∧ i = decodeCmd w) ∨ (p = .ba ∧ i = decodeBa c w) ∨ (p = .ig ∧ i = decodeIg c w) := by
  unfold decode at h
  split at h
  · cases p with
    | cmd => exact .inl ⟨rfl, (Except.ok.inj h).symm⟩
    | ba => exact .inr (.inl ⟨rfl, (Except.ok.inj h).symm⟩)
    | ig => exact .inr (.inr ⟨rfl, (Except.ok.inj h).symm⟩)
  · nomatch h

theorem field_lt (w lo len : Nat) : field w lo len < 2 ^ len := Nat.mod_lt _ (Nat.two_pow_pos len)

theorem decodeCmd_wellFormed (c : Cfg) (w : Nat) : wellFormed c (decodeCmd w) = true := by
  unfold decodeCmd
  split_ifs <;> rfl

theorem decodeBa_wellFormed (c : Cfg) (w : Nat) : wellFormed c (decodeBa c w) = true := by
  unfold decodeBa
  split_ifs <;> exact decide_eq_true (field_lt w 1 c.idxW)

/-- The operands of a decoded operation fit their fields. -/
theorem wellFormed_of_decode {c : Cfg} {p : Port} {w : Nat} {i : Instr}
    (h : decode c p w = .ok i) : wellFormed c i = true := by
  obtain ⟨-, rfl⟩ | ⟨-, rfl⟩ | ⟨-, rfl⟩ := decode_cases h
  · exact decodeCmd_wellFormed c w
  · exact decodeBa_wellFormed c w
  · exact decide_eq_true (field_lt w 128 c.iw)

/-- CHECK is decoded from the command port alone, and from op code 1 alone (R63, R68). -/
theorem decode_check {c : Cfg} {p : Port} {w : Nat} {h1 h2 : Half}
    (h : decode c p w = .ok (.check h1 h2)) : p = .cmd ∧ w % 4 = 1 := by
  obtain ⟨hp, hi⟩ | ⟨-, hi⟩ | ⟨-, hi⟩ := decode_cases h
  · unfold decodeCmd at hi
    split_ifs at hi with h0 h1
    exact ⟨hp, by simpa [field] using h1⟩
  · unfold decodeBa at hi
    split_ifs at hi
  · nomatch hi

/-! ### The state of the block alone -/

/-- The state with the model's own fields (logs 2, 4 and 6) cleared: what is left is the state of the block (R20), its
configuration and its part outputs. -/
def State.block (s : State) : State :=
  { s with heldWords := [], heldReady := false, inputs := [], draws := 0 }

section
variable {s t : State} (h : t.block = s.block)
include h

theorem State.cfg_of_block : t.cfg = s.cfg := (congrArg State.cfg h :)

theorem State.bits_of_block : t.bits = s.bits := (congrArg State.bits h :)

theorem State.rspq_of_block : t.rspq = s.rspq := (congrArg State.rspq h :)

end

/-! ### What an operation can do -/

@[simp] theorem raiseIndexRange_cfg (j : Nat) (s : State) : (raiseIndexRange j s).cfg = s.cfg := by
  obtain ⟨-, -, -, hcfg, -⟩ := raiseIndexRange_spec j s
  exact hcfg

@[simp] theorem raiseIndexRange_bits (j : Nat) (s : State) : (raiseIndexRange j s).bits = s.bits := by
  obtain ⟨-, -, -, -, hbits, -⟩ := raiseIndexRange_spec j s
  exact hbits

@[simp] theorem raiseIndexRange_rspq (j : Nat) (s : State) : (raiseIndexRange j s).rspq = s.rspq := by
  obtain ⟨-, -, -, -, -, hrspq, -⟩ := raiseIndexRange_spec j s
  exact hrspq

/-- The state an operation leaves, for each condition on the state it is carried out in. -/
inductive ExecEffect (s : State) : Instr → State → Prop where
  /-- a command offered to a port that is not ready (R124, R147) -/
  | notAccepted {i : Instr} (hp : portOf i = .cmd) (hready : cmdReady s = false) : ExecEffect s i s
  | add {h1 h2 : Half} (hready : cmdReady s = true) : ExecEffect s (.add h1 h2)
      (s.seqDrives.setBits (Memory.setAll s.bits (indices s.cfg h1 h2)))
  | check {h1 h2 : Half} (hready : cmdReady s = true) : ExecEffect s (.check h1 h2)
      (s.seqDrives.emit (hitOf s.bits (indices s.cfg h1 h2)))
  | reserved {op : ReservedOp} {h1 h2 : Half} (hready : cmdReady s = true) :
      ExecEffect s (.reserved op h1 h2) (raiseIllegalOp op.code s)
  /-- BSET or BTEST in the fault state (R124) -/
  | notPerformed {i : Instr} (hp : portOf i = .ba) (hfault : s.fault = true) :
      ExecEffect s i (s.setRdata none)
  /-- BSET or BTEST outside the array (R121) -/
  | outOfRange {i : Instr} {j : Nat} (hi : i = .bset j ∨ i = .btest j) (hfault : s.fault = false)
      (hj : s.cfg.M ≤ j) : ExecEffect s i (raiseIndexRange j (s.setRdata none))
  | bset {j : Nat} (hfault : s.fault = false) (hj : j < s.cfg.M) : ExecEffect s (.bset j)
      ((s.setRdata none).setBits (Memory.write s.bits j true))
  | btest {j : Nat} (hfault : s.fault = false) (hj : j < s.cfg.M) : ExecEffect s (.btest j)
      (s.setRdata (some (Memory.read s.bits j)))
  | idxgen {h1 h2 : Half} {n : Nat} : ExecEffect s (.idxgen h1 h2 n)
      (s.setIndex (some (idx s.cfg h1 h2 n)))

/-- An operation of the command port has its effect, when that is one, or is not accepted. -/
theorem execEffect_of_accepted {i : Instr} {f : State → State} {s t : State}
    (h : accepted f s = .next t) (hp : portOf i = .cmd)
    (hf : cmdReady s = true → ExecEffect s i (f s)) :
    ExecEffect s i t := by
  obtain ⟨hr, ht⟩ | ⟨hr, ht⟩ := accepted_cases h <;> cases ht
  · exact hf hr
  · exact .notAccepted hp hr

/-- An operation of the part BA has its effect, when that is one, or is not performed, or is out of range. -/
theorem execEffect_of_baOperation {i : Instr} {j : Nat} {f : State → State} {s t : State}
    (h : baOperation j f s = .next t) (hi : i = .bset j ∨ i = .btest j)
    (hf : s.fault = false → j < s.cfg.M → ExecEffect s i (f (s.setRdata none))) :
    ExecEffect s i t := by
  obtain ⟨hs, ht⟩ | ⟨hs, hj, ht⟩ | ⟨hs, hj, ht⟩ := baOperation_cases h <;> cases ht
  · exact .notPerformed (by obtain rfl | rfl := hi <;> rfl) hs
  · exact .outOfRange hi hs hj
  · exact hf hs hj

theorem execEffect_of_exec {i : Instr} {s t : State} (h : exec i s = .next t) :
    ExecEffect s i t := by
  cases i with
  | add h1 h2 =>
    rw [exec_add] at h
    exact execEffect_of_accepted h rfl .add
  | check h1 h2 =>
    rw [exec_check] at h
    exact execEffect_of_accepted h rfl .check
  | reserved op h1 h2 =>
    rw [exec_reserved] at h
    exact execEffect_of_accepted h rfl .reserved
  | bset j =>
    rw [exec_bset] at h
    exact execEffect_of_baOperation h (.inl rfl) .bset
  | btest j =>
    rw [exec_btest] at h
    exact execEffect_of_baOperation h (.inr rfl) .btest
  | idxgen h1 h2 n =>
    cases h
    exact .idxgen

/-! ### What a step can do -/

/-- What a step does to the block, and what was driven for it to do so. -/
inductive StepEffect (s t : State) : Prop where
  /-- the state of the block is kept: nothing is driven, or nothing is answered -/
  | kept (h : t.block = s.block)
  /-- a command is accepted: the word at the edge, or one presented before (R145) -/
  | command {v : CmdWord} {i : Instr} {u : State} (hv : CouldAccept s v)
      (hready : cmdReady s = true) (hi : decode s.cfg .cmd v.toNat = .ok i)
      (hu : u.block = s.block) (ht : exec i u = .next t)
  /-- a word is driven on a part's own port (R65, R66) -/
  | part {p : Port} {w : Nat} {i : Instr} {u : State} (hp : p ≠ .cmd)
      (hin : s.inputs.head? = some (inputOf p w)) (hi : decode s.cfg p w = .ok i)
      (hu : u.block = s.block) (ht : exec i u = .next t)
  /-- the oldest response is taken (R61) -/
  | taken (hin : s.inputs.head? = some .rspReady ∨ s.inputs.head? = some .rspLow)
      (hq : s.rspq ≠ []) (h : t.block = (takeResponse s).block)
  /-- the block is reset (R140) -/
  | reset (hin : s.inputs.head? = some .rst) (h : t.block = (applyReset s).block)

theorem runWord_next {p : Port} {w : Nat} {s t : State} (h : runWord p w s = .next t) :
    ∃ i, decode s.cfg p w = .ok i ∧ exec i s = .next t := by
  obtain ⟨i, hi, ht⟩ | ⟨-, ht⟩ := runWord_cases h
  · exact ⟨i, hi, ht.symm⟩
  · nomatch ht

/-- A word of the command port carried out on the state of a ready block is an accepted command. -/
theorem stepEffect_of_acceptedWord {v : CmdWord} {s u t : State} (hv : CouldAccept s v)
    (hready : cmdReady s = true) (h : runWord .cmd v.toNat u = .next t)
    (hu : u.block = s.block) : StepEffect s t := by
  obtain ⟨i, hi, ht⟩ := runWord_next h
  rw [State.cfg_of_block hu] at hi
  exact .command hv hready hi hu ht

theorem stepEffect_of_partWord {p : Port} (hp : p ≠ .cmd) {w : Nat} {s u t : State}
    (hin : s.inputs.head? = some (inputOf p w)) (h : runWord p w u = .next t)
    (hu : u.block = s.block) : StepEffect s t := by
  obtain ⟨i, hi, ht⟩ := runWord_next h
  rw [State.cfg_of_block hu] at hi
  exact .part hp hin hi hu ht

section
variable {s t : State} {xs : List Input}

theorem stepEffect_of_commandEdge {w : CmdWord} (hin : s.inputs.head? = some (.cmd w))
    (h : commandEdge w (s.setInputs xs) = .next t) : StepEffect s t := by
  obtain ⟨hr, -, ht⟩ | ⟨hr, -, ht⟩ | ⟨-, ht⟩ := commandEdge_cases h
  · exact stepEffect_of_acceptedWord (.inl ⟨w, hin, .inl rfl⟩) hr ht.symm rfl
  · have hne : presented s.heldWords w ≠ [] := List.ne_nil_of_mem (mem_presented.mpr (.inr rfl))
    have hmem := mem_presented.mp (drawnFrom_mem hne w s.draws)
    exact stepEffect_of_acceptedWord (.inl ⟨w, hin, hmem.symm⟩) hr ht.symm rfl
  · cases ht
    exact .kept rfl

theorem stepEffect_of_commandLow (hin : s.inputs.head? = some .cmdLow)
    (h : commandLow (s.setInputs xs) = .next t) : StepEffect s t := by
  obtain ⟨-, ht⟩ | ⟨hr, -, ht | ⟨v, hv, ht⟩⟩ := commandLow_cases h
  · cases ht
    exact .kept rfl
  · cases ht
    exact .kept rfl
  · exact stepEffect_of_acceptedWord (.inr ⟨hin, hv⟩) hr ht.symm rfl

theorem stepEffect_of_responseEdge (hin : s.inputs.head? = some .rspReady) :
    StepEffect s (responseEdge (s.setInputs xs)) := by
  obtain ⟨-, ht⟩ | ⟨hq, ht⟩ := responseEdge_cases (s.setInputs xs) <;> rw [ht]
  · exact .kept rfl
  · exact .taken (.inl hin) hq rfl

theorem stepEffect_of_responseLow (hin : s.inputs.head? = some .rspLow) :
    StepEffect s (responseLow (s.setInputs xs)) := by
  obtain ⟨-, ht⟩ | ⟨hq, -, ht | ht⟩ := responseLow_cases (s.setInputs xs) <;> rw [ht]
  · exact .kept rfl
  · exact .taken (.inr hin) hq rfl
  · exact .kept rfl

theorem stepEffect_of_driveInput {x : Input} (hin : s.inputs.head? = some x)
    (h : driveInput x (s.setInputs xs) = .next t) : StepEffect s t := by
  cases x with
  | rst =>
    cases h
    exact .reset hin rfl
  | cmd w => exact stepEffect_of_commandEdge hin h
  | cmdLow => exact stepEffect_of_commandLow hin h
  | rspReady =>
    cases h
    exact stepEffect_of_responseEdge hin
  | rspLow =>
    cases h
    exact stepEffect_of_responseLow hin
  | ba w => exact stepEffect_of_partWord (p := .ba) (by decide) hin h rfl
  | ig w => exact stepEffect_of_partWord (p := .ig) (by decide) hin h rfl

end

/-- A block that makes a step exists, and the step does one of the things listed. -/
theorem stepEffect_of_step {s t : State} (h : step s = .next t) :
    s.cfg.Buildable ∧ StepEffect s t := by
  obtain ⟨-, ht⟩ | ⟨hb, -, ht⟩ | ⟨hb, x, xs, hi, ht⟩ := step_cases h
  · nomatch ht
  · cases ht
    exact ⟨hb, .kept rfl⟩
  · exact ⟨hb, stepEffect_of_driveInput (by rw [hi]; rfl) ht.symm⟩

/-! ### The invariant of a block -/

/-- The invariant speaks of the state of the block alone. -/
theorem inv_block {s : State} : Inv s.block ↔ Inv s :=
  ⟨fun h => ⟨h.memory, h.inArray, h.quiet, h.faulted, h.queue, h.index⟩,
    fun h => ⟨h.memory, h.inArray, h.quiet, h.faulted, h.queue, h.index⟩⟩

theorem Inv.of_block {s t : State} (hs : Inv s) (h : t.block = s.block) : Inv t :=
  inv_block.mp (h ▸ inv_block.mpr hs)

theorem inv_resetOf (c : Cfg) : Inv (State.resetOf c) where
  memory := Memory.wf_resetOf c
  inArray _ _ := rfl
  quiet _ := ⟨rfl, rfl⟩
  faulted h := nomatch h
  queue := Nat.zero_le _
  index _ h := nomatch h

/-- The K indices of a command are indices of the array (R82). -/
theorem lt_M_of_mem_indices {c : Cfg} (hM : 1 ≤ c.M) {h1 h2 : Half} {j : Nat}
    (hj : j ∈ indices c h1 h2) : j < c.M := by
  obtain ⟨i, -, rfl⟩ := List.mem_map.mp hj
  exact idx_lt_M hM h1 h2 i

/-- An array of at most 2^64 bits has indices of at most 64 bits (R5). -/
theorem idxW_le_64 {c : Cfg} (h : c.M ≤ 2 ^ 64) : c.idxW ≤ 64 := by
  have hlog : ceilLog2 c.M ≤ 64 := by
    unfold ceilLog2
    split_ifs with h1
    · omega
    · exact (Nat.log2_lt (by omega)).mpr (by omega)
  exact max_le (by omega) hlog

section
variable {s : State} (hs : Inv s)
include hs

theorem Inv.seqDrives : Inv s.seqDrives :=
  { hs with index := fun _ h => nomatch h }

theorem Inv.setRdata (b : Option Bit) : Inv (s.setRdata b) :=
  ⟨hs.memory, hs.inArray, hs.quiet, hs.faulted, hs.queue, hs.index⟩

theorem Inv.setIndex {n : Nat} (hn : n < s.cfg.M) : Inv (s.setIndex (some n)) :=
  { hs with index := fun _ h => Option.some.inj h ▸ hn }

/-- Setting bits of the array keeps the invariant: the form stays canonical, and no bit beyond the array is set. -/
theorem Inv.setBits_setAll {js : List Nat} (hjs : ∀ j ∈ js, j < s.cfg.M) :
    Inv (s.setBits (Memory.setAll s.bits js)) :=
  { hs with
    memory := Memory.wf_setAll hs.memory js
    inArray := fun k hk => by
      have hk' : k ∉ js := fun hmem => Nat.not_lt.mpr hk (hjs k hmem)
      simp [Memory.read_setAll, hs.inArray k hk, hk'] }

theorem Inv.emit (hroom : s.rspq.length < s.cfg.rspqDepth) (hit : Bit) : Inv (s.emit hit) :=
  { hs with queue := by simpa using hroom }

theorem Inv.takeResponse : Inv (takeResponse s) :=
  { hs with queue := s.rspq.length_tail ▸ (Nat.sub_le _ 1).trans hs.queue }

/-- Entering the fault state with a cause and an info of R120 keeps the invariant. -/
theorem Inv.raiseFault {cause : BitVec 2} {info : BitVec 64}
    (h : (cause = causeIllegalOp ∧ (info = 2 ∨ info = 3)) ∨
      (cause = causeIndexRange ∧ (s.cfg.M ≤ 2 ^ 64 → s.cfg.M ≤ info.toNat))) :
    Inv (raiseFault cause info s) :=
  { hs with
    quiet := fun hf => nomatch hf
    faulted := fun _ => h }

theorem Inv.raiseIllegalOp (op : ReservedOp) : Inv (raiseIllegalOp op.code s) := by
  refine hs.raiseFault (.inl ⟨rfl, ?_⟩)
  cases op with
  | op2 => exact .inl rfl
  | op3 => exact .inr rfl

/-- INDEX_RANGE keeps the invariant when the index fits IDX_W bits: its info is open only for an array of more than 2^64
bits (log 6). -/
theorem Inv.raiseIndexRange {j : Nat} (hj : s.cfg.M ≤ j) (hw : j < 2 ^ s.cfg.idxW) :
    Inv (raiseIndexRange j s) := by
  by_cases h : j < 2 ^ 64
  · rw [raiseIndexRange_narrow h]
    refine hs.raiseFault (.inr ⟨rfl, fun _ => ?_⟩)
    rwa [BitVec.toNat_ofNat, Nat.mod_eq_of_lt h]
  · rw [raiseIndexRange_wide h]
    have hfault := hs.raiseFault (cause := causeIndexRange) (info := Config.wideFaultInfo s.draws)
      (.inr ⟨rfl, fun hM => absurd
        (hw.trans_le (Nat.pow_le_pow_right (by decide) (idxW_le_64 hM))) h⟩)
    exact hfault.of_block rfl

/-- Every operation whose operands fit their fields keeps the invariant. -/
theorem Inv.of_exec {i : Instr} {t : State} (hM : 1 ≤ s.cfg.M) (hi : wellFormed s.cfg i = true)
    (h : exec i s = .next t) : Inv t := by
  cases execEffect_of_exec h with
  | notAccepted => exact hs
  | add => exact hs.seqDrives.setBits_setAll fun _ => lt_M_of_mem_indices hM
  | check hready => exact hs.seqDrives.emit ((cmdReady_iff s).mp hready).2 _
  | reserved => exact hs.raiseIllegalOp _
  | notPerformed => exact hs.setRdata none
  | outOfRange hij _ hj =>
    obtain rfl | rfl := hij <;> exact (hs.setRdata none).raiseIndexRange hj (of_decide_eq_true hi)
  | @bset j _ hj => exact (hs.setRdata none).setBits_setAll (js := [j]) (by simpa using hj)
  | btest => exact hs.setRdata _
  | idxgen => exact hs.setIndex (idx_lt_M hM _ _ _)

/-- The same for an operation decoded and carried out within a step. -/
theorem Inv.of_exec_decoded {p : Port} {w : Nat} {i : Instr} {u t : State} (hM : 1 ≤ s.cfg.M)
    (hi : decode s.cfg p w = .ok i) (hu : u.block = s.block)
    (ht : exec i u = .next t) : Inv t := by
  have hcfg := State.cfg_of_block hu
  exact (hs.of_block hu).of_exec (hcfg ▸ hM) (hcfg ▸ wellFormed_of_decode hi) ht

end

/-- Settles O45: by what a step can do; an operation that a step carries out is decoded, so its index fits IDX_W bits. -/
theorem everyStepKeepsTheBlockInvariant : Obligations.EveryStepKeepsTheBlockInvariant := by
  unfold Obligations.EveryStepKeepsTheBlockInvariant
  intro s t hs h
  obtain ⟨⟨⟨hM, -, -⟩, -⟩, heff⟩ := stepEffect_of_step h
  cases heff with
  | kept h => exact hs.of_block h
  | command _ _ hi hu ht => exact hs.of_exec_decoded hM hi hu ht
  | part _ _ hi hu ht => exact hs.of_exec_decoded hM hi hu ht
  | taken _ _ h => exact hs.takeResponse.of_block h
  | reset _ h => exact (inv_resetOf s.cfg).of_block h

/-- Settles O11: the reset state of a configuration has no bit, no fault, no response and no index shown. -/
theorem resetStateMeetsTheBlockInvariant : Obligations.ResetStateMeetsTheBlockInvariant :=
  ⟨inv_resetOf Cfg.reference, inv_resetOf⟩

/-! ### The configuration -/

theorem exec_keeps_cfg {i : Instr} {s t : State} (h : exec i s = .next t) : t.cfg = s.cfg := by
  cases execEffect_of_exec h with
  | outOfRange => exact raiseIndexRange_cfg _ _
  | _ => rfl

theorem step_keeps_cfg {s t : State} (h : step s = .next t) : t.cfg = s.cfg := by
  obtain ⟨-, heff⟩ := stepEffect_of_step h
  cases heff with
  | kept h => exact State.cfg_of_block h
  | command _ _ _ hu ht => exact (exec_keeps_cfg ht).trans (State.cfg_of_block hu)
  | part _ _ _ hu ht => exact (exec_keeps_cfg ht).trans (State.cfg_of_block hu)
  | taken _ _ h => exact (State.cfg_of_block h).trans (takeResponse_cfg s)
  | reset _ h => exact (State.cfg_of_block h).trans (applyReset_cfg s)

/-- Settles O46: no operation writes the configuration, and a reset keeps it. -/
theorem configurationNeverChanges : Obligations.ConfigurationNeverChanges :=
  ⟨fun _ _ => step_keeps_cfg, fun _ _ _ => exec_keeps_cfg⟩

/-! ### The bits -/

theorem read_setAll_of_read {m : Memory} {k : Nat} (h : Memory.read m k = true) (js : List Nat) :
    Memory.read (Memory.setAll m js) k = true := by
  rw [Memory.read_setAll, h, Bool.true_or]

/-- No operation clears a bit (R25). -/
theorem exec_keeps_set_bits {i : Instr} {s t : State} (h : exec i s = .next t) {j : Nat}
    (hj : Memory.read s.bits j = true) : Memory.read t.bits j = true := by
  cases execEffect_of_exec h with
  | add => exact read_setAll_of_read hj _
  | @bset k => exact read_setAll_of_read hj [k]
  | outOfRange => rwa [raiseIndexRange_bits]
  | _ => exact hj

/-- Settles O27: a step keeps the bits, carries out an operation, which only sets bits, or is a reset. -/
theorem bitsOnlyGrowBetweenResets : Obligations.BitsOnlyGrowBetweenResets := by
  unfold Obligations.BitsOnlyGrowBetweenResets
  intro s t h hrst j hj
  obtain ⟨-, heff⟩ := stepEffect_of_step h
  cases heff with
  | kept h => rwa [State.bits_of_block h]
  | command _ _ _ hu ht => exact exec_keeps_set_bits ht (by rwa [State.bits_of_block hu])
  | part _ _ _ hu ht => exact exec_keeps_set_bits ht (by rwa [State.bits_of_block hu])
  | taken _ _ h => rwa [State.bits_of_block h]
  | reset hin _ => exact absurd hin hrst

/-! ### The responses -/

/-- An operation leaves the responses, or is a CHECK that appends one (R28). -/
theorem exec_rspq {i : Instr} {s t : State} (h : exec i s = .next t) :
    t.rspq = s.rspq ∨ ∃ h1 h2 hit, i = .check h1 h2 ∧ t.rspq = s.rspq ++ [hit] := by
  cases execEffect_of_exec h with
  | check => exact .inr ⟨_, _, _, rfl, rfl⟩
  | outOfRange => exact .inl (raiseIndexRange_rspq _ _)
  | _ => exact .inl rfl

/-- Settles O52: by what a step can do; of the decoded operations only a CHECK appends, and only the command port's
op code 1 decodes to it. -/
theorem responsesChangeOnlyByCheckTakeOrReset :
    Obligations.ResponsesChangeOnlyByCheckTakeOrReset := by
  unfold Obligations.ResponsesChangeOnlyByCheckTakeOrReset
  intro s t h
  obtain ⟨-, heff⟩ := stepEffect_of_step h
  cases heff with
  | kept h => exact .inl (State.rspq_of_block h)
  | @command v _ _ hv hready hi hu ht =>
    have hq := State.rspq_of_block hu
    obtain hsame | ⟨h1, h2, hit, rfl, happ⟩ := exec_rspq ht
    · exact .inl (hsame.trans hq)
    · obtain ⟨hfault, hroom⟩ := (cmdReady_iff s).mp hready
      exact .inr (.inl ⟨⟨v, hv, (decode_check hi).2⟩, hfault, hroom, hit, hq ▸ happ⟩)
  | part hp _ hi hu ht =>
    obtain hsame | ⟨h1, h2, hit, rfl, -⟩ := exec_rspq ht
    · exact .inl (hsame.trans (State.rspq_of_block hu))
    · exact absurd (decode_check hi).1 hp
  | taken hin _ h => exact .inr (.inr (.inl ⟨hin, (State.rspq_of_block h).trans (takeResponse_rspq s)⟩))
  | reset hin h => exact .inr (.inr (.inr ⟨hin, (State.rspq_of_block h).trans (applyReset_rspq s)⟩))

/-- Settles O14: the edge with `rsp_ready = 1` on the state with that input consumed, by whether a response is queued. -/
theorem responsesAreTakenOldestFirst : Obligations.ResponsesAreTakenOldestFirst := by
  unfold Obligations.ResponsesAreTakenOldestFirst
  intro s rest hb hi
  refine ⟨responseEdge (s.setInputs rest), step_of_input hb hi, ?_⟩
  obtain ⟨hq, ht⟩ | ⟨hq, ht⟩ := responseEdge_cases (s.setInputs rest) <;>
    rw [State.setInputs_rspq] at hq <;> rw [ht]
  · refine ⟨fun b q h => ?_, fun _ => ⟨?_, hq, rfl⟩,
      rfl, rfl, rfl, rfl, rfl, rfl, rfl, rfl, rfl, rfl⟩
    · simp [hq] at h
    · simp [rspValid, hq]
  · refine ⟨fun b q h => ⟨?_, ?_, ?_, rfl⟩, fun h => absurd h hq,
      rfl, rfl, rfl, rfl, rfl, rfl, rfl, rfl, rfl, rfl⟩
    · simp [rspValid, h]
    · simp [rspHit, h]
    · simp [h]

/-- The hit bit depends on the tested bits alone. -/
theorem hitOf_congr {m n : Memory} {js : List Nat}
    (h : ∀ j ∈ js, Memory.read m j = Memory.read n j) : hitOf m js = hitOf n js := by
  induction js with
  | nil => rfl
  | cons j js ih =>
    obtain ⟨hj, hjs⟩ := List.forall_mem_cons.mp h
    rw [hitOf_cons, hitOf_cons, hj, ih hjs]

/-- Settles O30: both blocks form the hit bit from the same indices, where their bits agree. -/
theorem checkAnswerDependsOnItsBitsAlone : Obligations.CheckAnswerDependsOnItsBitsAlone := by
  unfold Obligations.CheckAnswerDependsOnItsBitsAlone
  intro s₁ s₂ h1 h2 hready₁ hready₂ hcfg hbits
  have hhit : hitOf s₁.bits (indices s₁.cfg h1 h2) = hitOf s₂.bits (indices s₂.cfg h1 h2) := by
    rw [← hcfg]
    refine hitOf_congr fun j hj => ?_
    obtain ⟨i, hi, rfl⟩ := List.mem_map.mp hj
    exact hbits i (List.mem_range.mp hi)
  refine ⟨_, _, _, exec_check_of_ready hready₁ h1 h2, exec_check_of_ready hready₂ h1 h2, rfl, ?_⟩
  rw [hhit]
  rfl

/-! ### Reset -/

/-- Settles O9: the step is `applyReset` on the state with that input consumed. -/
theorem resetSetsEveryPieceOfState : Obligations.ResetSetsEveryPieceOfState := by
  unfold Obligations.ResetSetsEveryPieceOfState
  refine ⟨fun s rest hb hi => ?_, fun _ => rfl, rfl, rfl, rfl, rfl⟩
  exact ⟨applyReset (s.setInputs rest), step_of_input hb hi, fun _ => rfl, rfl, rfl, rfl, rfl, rfl⟩

end Sys2Proof.Machine

/-! Family 20_memory: BSET twice, the width of an index (R41), how far the bits can be seen (R42), and the step that runs a
presented command. -/

namespace Sys2Proof.Machine

/-! ### A second BSET of the same index -/

/-- Writing a 1 twice at one index writes it once; no canonical form is needed. -/
theorem Memory.write_true_write_true (m : Memory) (j : Nat) :
    Memory.write (Memory.write m j true) j true = Memory.write m j true := by
  induction m with
  | nil => simp [Memory.write]
  | cons e m ih =>
    obtain ⟨a, c⟩ := e
    rcases Nat.lt_trichotomy j a with h | rfl | h
    · simp [Memory.write_below h, Memory.write_at]
    · simp [Memory.write_at]
    · simp [Memory.write_above h, ih]

/-- Settles O42: the second BSET writes the bit it finds, and neither shows a value on `ba_rdata`. -/
theorem bsetTwiceIsBsetOnce : Obligations.BsetTwiceIsBsetOnce := by
  unfold Obligations.BsetTwiceIsBsetOnce
  intro s j hf hj
  refine ⟨_, exec_bset_in_range hf hj, ?_⟩
  rw [exec_bset_in_range (s := (s.setRdata none).setBits _) hf hj, State.setBits_bits,
    Memory.write_true_write_true]
  rfl

/-! ### The width of an index (R5, R41) -/

/-- n bits have M values or more exactly when n is at least ⌈log2 M⌉. -/
theorem ceilLog2_le_iff (M n : Nat) : ceilLog2 M ≤ n ↔ M ≤ 2 ^ n := by
  unfold ceilLog2
  split_ifs with h1
  · exact iff_of_true (Nat.zero_le n) (h1.trans Nat.one_le_two_pow)
  · rw [Nat.add_one_le_iff, Nat.log2_lt (by omega)]
    omega

theorem one_le_idxW (c : Cfg) : 1 ≤ c.idxW := le_max_left 1 _

/-- A width of at least one bit holds every index exactly when it is at least IDX_W. -/
theorem idxW_le_iff (c : Cfg) {n : Nat} (hn : 1 ≤ n) : c.idxW ≤ n ↔ c.M ≤ 2 ^ n := by
  rw [← ceilLog2_le_iff, Cfg.idxW, max_le_iff, and_iff_right hn]

theorem M_le_two_pow_idxW (c : Cfg) : c.M ≤ 2 ^ c.idxW :=
  (idxW_le_iff c (one_le_idxW c)).mp le_rfl

/-- M, the least value out of range, fits IDX_W bits exactly when M is no power of two or is 1 (R41). -/
theorem M_lt_two_pow_idxW_iff (c : Cfg) :
    c.M < 2 ^ c.idxW ↔ (∀ k, c.M ≠ 2 ^ k) ∨ c.M = 1 := by
  constructor
  · intro hlt
    by_contra! hne
    obtain ⟨⟨k, hk⟩, hM1⟩ := hne
    have hk1 : 1 ≤ k := Nat.one_le_iff_ne_zero.mpr (by rintro rfl; exact hM1 hk)
    have hle : c.idxW ≤ k := (idxW_le_iff c hk1).mpr hk.le
    have hpow : 2 ^ c.idxW ≤ 2 ^ k := Nat.pow_le_pow_right (by decide) hle
    omega
  · rintro (hne | hM1)
    · exact lt_of_le_of_ne (M_le_two_pow_idxW c) (hne _)
    · exact hM1 ▸ Nat.one_lt_two_pow (Nat.one_le_iff_ne_zero.mp (one_le_idxW c))

/-- BSET and BTEST outside the array enter the fault state with cause INDEX_RANGE (R121). -/
theorem exec_out_of_range_faults {s : State} {j : Nat} {i : Instr} (hf : s.fault = false)
    (hj : s.cfg.M ≤ j) (hi : i = .bset j ∨ i = .btest j) :
    ∃ t, exec i s = .next t ∧ t.fault = true ∧ t.faultCause = causeIndexRange := by
  obtain ⟨hfault, hcause, -⟩ := raiseIndexRange_spec j (s.setRdata none)
  obtain rfl | rfl := hi
  · exact ⟨_, exec_bset_out_of_range hf hj, hfault, hcause⟩
  · exact ⟨_, exec_btest_out_of_range hf hj, hfault, hcause⟩

/-- Settles O54: the first three clauses say that a width holds the array exactly when it is at least IDX_W; an
out-of-range value exists exactly when M itself is one. -/
theorem indexWidthIsTheLeastThatHoldsTheArray :
    Obligations.IndexWidthIsTheLeastThatHoldsTheArray := by
  unfold Obligations.IndexWidthIsTheLeastThatHoldsTheArray
  intro c _
  have hexists : (∃ j, c.M ≤ j ∧ j < 2 ^ c.idxW) ↔ c.M < 2 ^ c.idxW :=
    ⟨fun ⟨_, hj, hlt⟩ => hj.trans_lt hlt, fun h => ⟨c.M, le_rfl, h⟩⟩
  refine ⟨M_le_two_pow_idxW c, one_le_idxW c, fun n hn => (idxW_le_iff c hn).mpr,
    hexists.trans (M_lt_two_pow_idxW_iff c), ?_⟩
  rintro s j i rfl hf hj - hi
  exact exec_out_of_range_faults hf hj hi

/-! ### The step that runs a presented command (R47, R60) -/

/-- Every command word decodes (R69). -/
theorem decode_cmd (c : Cfg) (w : CmdWord) : decode c .cmd w.toNat = .ok (decodeCmd w.toNat) :=
  if_pos w.isLt

theorem runWord_of_decode {p : Port} {w : Nat} {s : State} {i : Instr}
    (h : decode s.cfg p w = .ok i) : runWord p w s = exec i s := by
  simp [runWord, h]

/-- A ready port accepts the word at the edge of a host that held no other (R145). -/
theorem commandEdge_of_steady {w : CmdWord} {s : State} (hready : cmdReady s = true)
    (hsteady : ∀ v ∈ s.heldWords, v = w) :
    commandEdge w s = runWord .cmd w.toNat (s.setHeld []) := by
  rw [commandEdge, if_pos hready, if_pos (by simpa using hsteady)]

/-- Settles O5: the edge accepts the word, which decodes since it has 130 bits. -/
theorem stepRunsThePresentedCommand : Obligations.StepRunsThePresentedCommand := by
  unfold Obligations.StepRunsThePresentedCommand
  intro s w rest hb hin hready hsteady
  refine ⟨_, decode_cmd s.cfg w, ?_⟩
  calc step s
    _ = commandEdge w (s.setInputs rest) := step_of_input hb hin
    _ = runWord .cmd w.toNat ((s.setInputs rest).setHeld []) := commandEdge_of_steady hready hsteady
    _ = exec (decodeCmd w.toNat) ((s.setInputs rest).setHeld []) :=
      runWord_of_decode (decode_cmd s.cfg w)

/-! ### Two blocks that differ in their bits (R42)

What an operation or an edge does to a state and to that state with another bit array is compared by one relation of
outcomes. It holds of every operation, and so of every part of the step. -/

/-- `t` with another bit array, other responses and another value on `ba_rdata`. -/
def State.withSeen (t : State) (m : Memory) (q : List Bit) (r : Option Bit) : State :=
  { t with bits := m, rspq := q, baRdata := r }

/-- Two outcomes that agree but for the bits, for one new response behind those queued in `q`, which only what makes
`checked` true can append, and for the value on `ba_rdata`, which only what makes `tested` true can show. -/
inductive SeenApart (q : List Bit) (checked tested : Prop) :
    Host.Outcome State Fault Refusal → Host.Outcome State Fault Refusal → Prop where
  | next {t : State} {m : Memory} {q' : List Bit} {r : Option Bit}
      (hq : q' = t.rspq ∨ checked ∧ ∃ b b', t.rspq = q ++ [b] ∧ q' = q ++ [b'])
      (hr : r = t.baRdata ∨ tested) : SeenApart q checked tested (.next t) (.next (t.withSeen m q' r))
  | refused (r : Refusal) : SeenApart q checked tested (.refused r) (.refused r)

section
variable {q : List Bit} {checked tested : Prop}

/-- Two next states that differ in their bits alone. -/
theorem SeenApart.of_bits (t : State) (m : Memory) :
    SeenApart q checked tested (.next t) (.next (t.setBits m)) :=
  .next (.inl rfl) (.inl rfl)

@[simp] theorem cmdReady_setBits (s : State) (m : Memory) : cmdReady (s.setBits m) = cmdReady s := rfl

@[simp] theorem rspValid_setBits (s : State) (m : Memory) : rspValid (s.setBits m) = rspValid s := rfl

theorem raiseIndexRange_setBits (j : Nat) (s : State) (m : Memory) :
    raiseIndexRange j (s.setBits m) = (raiseIndexRange j s).setBits m := by
  by_cases h : j < 2 ^ 64
  · simp only [raiseIndexRange_narrow h]; rfl
  · simp only [raiseIndexRange_wide h]; rfl

theorem seenApart_accepted {f : State → State} {s : State} {m : Memory}
    (hf : SeenApart q checked tested (.next (f s)) (.next (f (s.setBits m)))) :
    SeenApart q checked tested (accepted f s) (accepted f (s.setBits m)) := by
  cases hr : cmdReady s with
  | true => rwa [accepted_of_ready hr, accepted_of_ready (s := s.setBits m) hr]
  | false =>
    rw [accepted_of_not_ready hr, accepted_of_not_ready (s := s.setBits m) hr]
    exact .of_bits s m

theorem seenApart_baOperation {f : State → State} {s : State} {m : Memory} (j : Nat)
    (hf : SeenApart q checked tested (.next (f (s.setRdata none)))
      (.next (f ((s.setRdata none).setBits m)))) :
    SeenApart q checked tested (baOperation j f s) (baOperation j f (s.setBits m)) := by
  obtain ⟨hfault, ho⟩ | ⟨hfault, hj, ho⟩ | ⟨hfault, hj, ho⟩ :=
    baOperation_cases (j := j) (f := f) (s := s) rfl
  · rw [ho, baOperation_faulted (s := s.setBits m) hfault]
    exact .of_bits (s.setRdata none) m
  · rw [ho, baOperation_out_of_range (s := s.setBits m) hfault hj]
    exact raiseIndexRange_setBits j (s.setRdata none) m ▸ .of_bits _ m
  · rw [ho, baOperation_in_range (s := s.setBits m) hfault hj]
    exact hf

/-- Of the operations, CHECK alone appends what it reads of the bits, and BTEST alone shows it (R92, R102). -/
theorem seenApart_exec {i : Instr} {s : State} (m : Memory)
    (hc : ∀ h1 h2, i = .check h1 h2 → checked) (ht : ∀ j, i = .btest j → tested) :
    SeenApart s.rspq checked tested (exec i s) (exec i (s.setBits m)) := by
  cases i with
  | add h1 h2 =>
    rw [exec_add, exec_add]
    exact seenApart_accepted (.next (.inl rfl) (.inl rfl))
  | check h1 h2 =>
    rw [exec_check, exec_check]
    exact seenApart_accepted (.next (.inr ⟨hc h1 h2 rfl, _, _, rfl, rfl⟩) (.inl rfl))
  | reserved op h1 h2 =>
    rw [exec_reserved, exec_reserved]
    exact seenApart_accepted (.of_bits (raiseIllegalOp op.code s) m)
  | bset j =>
    rw [exec_bset, exec_bset]
    exact seenApart_baOperation j (.next (.inl rfl) (.inl rfl))
  | btest j =>
    rw [exec_btest, exec_btest]
    exact seenApart_baOperation j (.next (.inl rfl) (.inr (ht j rfl)))
  | idxgen h1 h2 n => exact .of_bits (s.setIndex (some (idx s.cfg h1 h2 n))) m

/-- BTEST is decoded from the BA port alone (R65, R68). -/
theorem decode_btest {c : Cfg} {p : Port} {w j : Nat} (h : decode c p w = .ok (.btest j)) :
    p = .ba := by
  obtain ⟨-, hi⟩ | ⟨hp, -⟩ | ⟨-, hi⟩ := decode_cases h
  · unfold decodeCmd at hi
    split_ifs at hi
  · exact hp
  · nomatch hi

theorem seenApart_runWord {p : Port} {w : Nat} {s : State} (m : Memory)
    (hc : p = .cmd → w % 4 = 1 → checked) (ht : p = .ba → tested) :
    SeenApart s.rspq checked tested (runWord p w s) (runWord p w (s.setBits m)) := by
  cases h : decode s.cfg p w with
  | ok i =>
    rw [runWord_of_decode h, runWord_of_decode (s := s.setBits m) h]
    refine seenApart_exec m (fun h1 h2 hi => ?_) fun j hi => ?_ <;> subst hi
    · exact hc (decode_check h).1 (decode_check h).2
    · exact ht (decode_btest h)
  | error e =>
    simp only [runWord, State.setBits_cfg, h]
    exact .refused _

/-- A choice that does not depend on the bits is made alike. -/
theorem SeenApart.ite {b : Bool} {o₁ o₂ o₁' o₂' : Host.Outcome State Fault Refusal}
    (h₁ : SeenApart q checked tested o₁ o₁') (h₂ : SeenApart q checked tested o₂ o₂') :
    SeenApart q checked tested (if b then o₁ else o₂) (if b then o₁' else o₂') := by
  cases b with
  | true => exact h₁
  | false => exact h₂

/-- A word carried out from the command port. -/
theorem seenApart_commandWord {v : CmdWord} {s : State} (m : Memory)
    (hc : v.toNat % 4 = 1 → checked) :
    SeenApart s.rspq checked tested (runWord .cmd v.toNat s) (runWord .cmd v.toNat (s.setBits m)) :=
  seenApart_runWord m (fun _ => hc) (fun h => nomatch h)

theorem seenApart_commandEdge {w : CmdWord} {s : State} (m : Memory)
    (hc : ∀ v, v = w ∨ v ∈ s.heldWords → v.toNat % 4 = 1 → checked) :
    SeenApart s.rspq checked tested (commandEdge w s) (commandEdge w (s.setBits m)) := by
  have hne : presented s.heldWords w ≠ [] := List.ne_nil_of_mem (mem_presented.mpr (.inr rfl))
  have hdrawn := mem_presented.mp (drawnFrom_mem hne w s.draws)
  unfold commandEdge
  refine .ite (.ite ?_ ?_) ?_
  · exact seenApart_commandWord (s := s.setHeld []) m (hc w (.inl rfl))
  · exact seenApart_commandWord (s := (s.setHeld []).advanceDraws) m (hc _ hdrawn.symm)
  · exact .of_bits (s.setHeld (presented s.heldWords w)) m

theorem seenApart_commandLow {s : State} (m : Memory)
    (hc : ∀ v ∈ s.heldWords, v.toNat % 4 = 1 → checked) :
    SeenApart s.rspq checked tested (commandLow s) (commandLow (s.setBits m)) := by
  cases hw : s.heldWords with
  | nil =>
    simp only [commandLow, State.setBits_heldWords, hw]
    exact .of_bits s m
  | cons w ws =>
    have hdrawn : drawnFrom (w :: ws) w s.draws ∈ s.heldWords := by
      rw [hw]
      exact drawnFrom_mem (List.cons_ne_nil w ws) w s.draws
    simp only [commandLow, State.setBits_heldWords, hw]
    refine .ite (.ite ?_ ?_) ?_
    · exact seenApart_commandWord (s := (s.setHeld []).advanceDraws) m (hc _ hdrawn)
    · exact .of_bits (s.setHeld []).advanceDraws m
    · exact .of_bits s m

theorem seenApart_responseEdge (s : State) (m : Memory) :
    SeenApart q checked tested (.next (responseEdge s)) (.next (responseEdge (s.setBits m))) := by
  have h : responseEdge (s.setBits m) = (responseEdge s).setBits m := by
    cases hv : rspValid s <;> simp only [responseEdge, rspValid_setBits, hv] <;> rfl
  exact h ▸ .of_bits (responseEdge s) m

theorem seenApart_responseLow (s : State) (m : Memory) :
    SeenApart q checked tested (.next (responseLow s)) (.next (responseLow (s.setBits m))) := by
  have h : responseLow (s.setBits m) = (responseLow s).setBits m := by
    cases hv : rspValid s && s.heldReady with
    | false => simp [responseLow, hv]
    | true =>
      cases hd : Config.drawnTake s.draws <;>
        simp only [responseLow, rspValid_setBits, State.setBits_heldReady, State.setBits_draws,
          hv, hd] <;> rfl
  exact h ▸ .of_bits (responseLow s) m

end

/-- An edge shows the bits only where a CHECK word could be accepted or a BA word is driven (R42). -/
theorem seenApart_driveInput {s : State} {x : Input} {xs : List Input} (m : Memory)
    (hin : s.inputs.head? = some x) :
    SeenApart s.rspq (∃ v, CouldAccept s v ∧ v.toNat % 4 = 1)
      (∃ w, s.inputs.head? = some (.ba w))
      (driveInput x (s.setInputs xs)) (driveInput x ((s.setInputs xs).setBits m)) := by
  cases x with
  | rst => exact .of_bits (applyReset (s.setInputs xs)) []
  | cmd w =>
    exact seenApart_commandEdge (s := s.setInputs xs) m fun v hv hop => ⟨v, .inl ⟨w, hin, hv⟩, hop⟩
  | cmdLow =>
    exact seenApart_commandLow (s := s.setInputs xs) m fun v hv hop => ⟨v, .inr ⟨hin, hv⟩, hop⟩
  | rspReady => exact seenApart_responseEdge (s.setInputs xs) m
  | rspLow => exact seenApart_responseLow (s.setInputs xs) m
  | ba w =>
    exact seenApart_runWord (s := s.setInputs xs) m (fun h => nomatch h) fun _ => ⟨w, hin⟩
  | ig w =>
    exact seenApart_runWord (s := s.setInputs xs) m (fun h => nomatch h) (fun h => nomatch h)

theorem seenApart_step (s : State) (m : Memory) :
    SeenApart s.rspq (∃ v, CouldAccept s v ∧ v.toNat % 4 = 1)
      (∃ w, s.inputs.head? = some (.ba w)) (step s) (step (s.setBits m)) := by
  obtain ⟨hb, ho⟩ | ⟨hb, hi, ho⟩ | ⟨hb, x, xs, hi, ho⟩ := step_cases (s := s) rfl
  · rw [ho, step_of_not_buildable (s := s.setBits m) hb]
    exact .refused _
  · rw [ho, step_of_no_input (s := s.setBits m) hb hi]
    exact .of_bits s m
  · rw [ho, step_of_input (s := s.setBits m) hb hi]
    exact seenApart_driveInput m (by rw [hi]; rfl)

/-- Settles O51: the two outcomes are compared operation by operation; responses that differ are each one behind those
queued before. -/
theorem bitsAreSeenOnlyThroughChecks : Obligations.BitsAreSeenOnlyThroughChecks := by
  unfold Obligations.BitsAreSeenOnlyThroughChecks
  intro s t m h
  have hsee := seenApart_step s m
  rw [h] at hsee
  generalize step (s.setBits m) = o at hsee
  cases hsee with
  | @next _ m' q' r hq hr =>
    refine ⟨t.withSeen m' q' r, rfl, rfl, rfl, rfl, rfl, rfl, rfl, rfl, rfl, rfl, ?_, ?_, ?_, ?_⟩
      <;> simp only [State.withSeen]
    · obtain rfl | ⟨-, b, b', ht, rfl⟩ := hq
      · rfl
      · simp [ht]
    · obtain rfl | ⟨-, b, b', -, rfl⟩ := hq
      · exact id
      · exact fun _ => List.prefix_append _ _
    · exact fun hno => hq.resolve_right fun ⟨⟨v, hv, hop⟩, _⟩ => hno v hv hop
    · exact fun hno => hr.resolve_right fun ⟨w, hw⟩ => hno w hw

end Sys2Proof.Machine

/-! Family 30_encoding: the three word formats and the op code table (R62, R65, R66, R69), and the step of a block by what is
driven into it: a part's word, a command that is not accepted, a signal lowered early (R145). -/

namespace Sys2Proof.Machine

open Sys2Proof.Laws

/-! ### Fields of a word (R67) -/

theorem halfAt_toNat (w lo : Nat) : (halfAt w lo).toNat = w / 2 ^ lo % 2 ^ 64 := by
  rw [halfAt, field, BitVec.toNat_ofNat, Nat.mod_mod]

/-- The topmost field of a word is all that stands above its lowest bit. -/
theorem field_top {w lo len : Nat} (h : w < 2 ^ (lo + len)) : field w lo len = w / 2 ^ lo :=
  Nat.mod_eq_of_lt (Nat.div_lt_of_lt_mul (pow_add 2 lo len ▸ h))

/-- A decoded number has no more bits than the port (R68). -/
theorem lt_of_decode {c : Cfg} {p : Port} {w : Nat} {i : Instr} (h : decode c p w = .ok i) :
    w < 2 ^ portWidth c p := by
  unfold decode at h
  split at h
  · assumption
  · nomatch h

theorem decode_cmd_of_lt {c : Cfg} {w : Nat} (hw : w < 2 ^ portWidth c .cmd) :
    decode c .cmd w = .ok (decodeCmd w) := if_pos hw

theorem decode_ba_of_lt {c : Cfg} {w : Nat} (hw : w < 2 ^ portWidth c .ba) :
    decode c .ba w = .ok (decodeBa c w) := if_pos hw

theorem decode_ig_of_lt {c : Cfg} {w : Nat} (hw : w < 2 ^ portWidth c .ig) :
    decode c .ig w = .ok (decodeIg c w) := if_pos hw

/-- Every word of a port decodes (R69). -/
theorem decode_of_lt {c : Cfg} {p : Port} {w : Nat} (hw : w < 2 ^ portWidth c p) :
    ∃ i, decode c p w = .ok i := by
  cases p with
  | cmd => exact ⟨_, decode_cmd_of_lt hw⟩
  | ba => exact ⟨_, decode_ba_of_lt hw⟩
  | ig => exact ⟨_, decode_ig_of_lt hw⟩

/-! ### Format CMD (R62, R63) -/

theorem halfAt_h1_cmdWordOf {op : Nat} (hop : op < 4) (h1 h2 : Half) :
    halfAt (cmdWordOf op h1 h2) 2 = h1 := by
  apply BitVec.eq_of_toNat_eq
  have := h1.isLt
  rw [halfAt_toNat, cmdWordOf]
  omega

theorem halfAt_h2_cmdWordOf {op : Nat} (hop : op < 4) (h1 h2 : Half) :
    halfAt (cmdWordOf op h1 h2) 66 = h2 := by
  apply BitVec.eq_of_toNat_eq
  have := h1.isLt
  have := h2.isLt
  rw [halfAt_toNat, cmdWordOf]
  omega

/-- The fields of a CMD word, put together again, are the word. -/
theorem cmdWordOf_halfAt {w op : Nat} (hw : w < 2 ^ 130) (hop : w % 4 = op) :
    cmdWordOf op (halfAt w 2) (halfAt w 66) = w := by
  rw [cmdWordOf, halfAt_toNat, halfAt_toNat]
  omega

theorem decodeCmd_of_op_zero {w : Nat} (h : w % 4 = 0) :
    decodeCmd w = .add (halfAt w 2) (halfAt w 66) := by
  simp [decodeCmd, field, h]

theorem decodeCmd_of_op_one {w : Nat} (h : w % 4 = 1) :
    decodeCmd w = .check (halfAt w 2) (halfAt w 66) := by
  simp [decodeCmd, field, h]

theorem decodeCmd_of_op_reserved {w : Nat} {op : ReservedOp} (h : w % 4 = op.code.toNat) :
    decodeCmd w = .reserved op (halfAt w 2) (halfAt w 66) := by
  cases op <;> simp [decodeCmd, field, h, ReservedOp.code]

/-- An op code is 0, 1 or that of a reserved command (R63). -/
theorem op_cases (w : Nat) : w % 4 = 0 ∨ w % 4 = 1 ∨ ∃ op : ReservedOp, w % 4 = op.code.toNat := by
  have h : w % 4 = 0 ∨ w % 4 = 1 ∨ w % 4 = 2 ∨ w % 4 = 3 := by omega
  obtain h | h | h | h := h
  · exact .inl h
  · exact .inr (.inl h)
  · exact .inr (.inr ⟨.op2, h⟩)
  · exact .inr (.inr ⟨.op3, h⟩)

theorem two_le_reservedOp_code (op : ReservedOp) : 2 ≤ op.code.toNat := by
  cases op <;> decide

theorem decodeCmd_encode_add (h1 h2 : Half) : decodeCmd (encode (.add h1 h2)) = .add h1 h2 := by
  refine (decodeCmd_of_op_zero (EncodedRow.cmdWordOf_mod (by decide) h1 h2)).trans ?_
  rw [halfAt_h1_cmdWordOf (by decide), halfAt_h2_cmdWordOf (by decide)]

theorem decodeCmd_encode_check (h1 h2 : Half) :
    decodeCmd (encode (.check h1 h2)) = .check h1 h2 := by
  refine (decodeCmd_of_op_one (EncodedRow.cmdWordOf_mod (by decide) h1 h2)).trans ?_
  rw [halfAt_h1_cmdWordOf (by decide), halfAt_h2_cmdWordOf (by decide)]

theorem decodeCmd_encode_reserved (op : ReservedOp) (h1 h2 : Half) :
    decodeCmd (encode (.reserved op h1 h2)) = .reserved op h1 h2 := by
  have hop : op.code.toNat < 4 := op.code.isLt
  refine (decodeCmd_of_op_reserved (EncodedRow.cmdWordOf_mod hop h1 h2)).trans ?_
  rw [halfAt_h1_cmdWordOf hop, halfAt_h2_cmdWordOf hop]

/-- A command is encoded without loss of a bit (R62). -/
theorem encode_decodeCmd {w : Nat} (hw : w < 2 ^ 130) :
    portOf (decodeCmd w) = .cmd ∧ encode (decodeCmd w) = w := by
  obtain h | h | ⟨op, h⟩ := op_cases w
  · rw [decodeCmd_of_op_zero h]
    exact ⟨rfl, cmdWordOf_halfAt hw h⟩
  · rw [decodeCmd_of_op_one h]
    exact ⟨rfl, cmdWordOf_halfAt hw h⟩
  · rw [decodeCmd_of_op_reserved h]
    exact ⟨rfl, cmdWordOf_halfAt hw h⟩

/-! ### Format BA (R65) -/

theorem decodeBa_of_odd {c : Cfg} {w : Nat} (hw : w < 2 ^ portWidth c .ba) (h : w % 2 = 1) :
    decodeBa c w = .bset (w / 2) := by
  have hj : field w 1 c.idxW = w / 2 := field_top (by rwa [Nat.add_comm])
  rw [decodeBa, if_pos (by simpa [field] using h), hj]

theorem decodeBa_of_even {c : Cfg} {w : Nat} (hw : w < 2 ^ portWidth c .ba) (h : w % 2 = 0) :
    decodeBa c w = .btest (w / 2) := by
  have hj : field w 1 c.idxW = w / 2 := field_top (by rwa [Nat.add_comm])
  rw [decodeBa, if_neg (by simpa [field] using h), hj]

theorem decodeBa_encode_bset {c : Cfg} {j : Nat} (hw : encode (.bset j) < 2 ^ portWidth c .ba) :
    decodeBa c (encode (.bset j)) = .bset j := by
  have hop : (j * 2 + 1) % 2 = 1 := by omega
  have hj : (j * 2 + 1) / 2 = j := by omega
  exact (decodeBa_of_odd hw hop).trans (congrArg Instr.bset hj)

theorem decodeBa_encode_btest {c : Cfg} {j : Nat} (hw : encode (.btest j) < 2 ^ portWidth c .ba) :
    decodeBa c (encode (.btest j)) = .btest j := by
  have hop : j * 2 % 2 = 0 := by omega
  have hj : j * 2 / 2 = j := by omega
  exact (decodeBa_of_even hw hop).trans (congrArg Instr.btest hj)

/-- An operation of the part BA is encoded without loss of a bit (R65). -/
theorem encode_decodeBa {c : Cfg} {w : Nat} (hw : w < 2 ^ portWidth c .ba) :
    portOf (decodeBa c w) = .ba ∧ encode (decodeBa c w) = w := by
  obtain h | h := Nat.mod_two_eq_zero_or_one w
  · rw [decodeBa_of_even hw h]
    exact ⟨rfl, by rw [encode]; omega⟩
  · rw [decodeBa_of_odd hw h]
    exact ⟨rfl, by rw [encode]; omega⟩

/-! ### Format IG (R66) -/

theorem decodeIg_of_lt {c : Cfg} {w : Nat} (hw : w < 2 ^ portWidth c .ig) :
    decodeIg c w = .idxgen (halfAt w 0) (halfAt w 64) (w / 2 ^ 128) := by
  rw [decodeIg, field_top hw]

theorem encode_decodeIg {c : Cfg} {w : Nat} (hw : w < 2 ^ portWidth c .ig) :
    encode (decodeIg c w) = w := by
  rw [decodeIg_of_lt hw, encode, halfAt_toNat, halfAt_toNat]
  omega

theorem decodeIg_encode {c : Cfg} {h1 h2 : Half} {i : Nat}
    (hw : encode (.idxgen h1 h2 i) < 2 ^ portWidth c .ig) :
    decodeIg c (encode (.idxgen h1 h2 i)) = .idxgen h1 h2 i := by
  have := h1.isLt
  have := h2.isLt
  have hh1 : halfAt (encode (.idxgen h1 h2 i)) 0 = h1 := by
    apply BitVec.eq_of_toNat_eq
    rw [halfAt_toNat, encode]
    omega
  have hh2 : halfAt (encode (.idxgen h1 h2 i)) 64 = h2 := by
    apply BitVec.eq_of_toNat_eq
    rw [halfAt_toNat, encode]
    omega
  have hi : encode (.idxgen h1 h2 i) / 2 ^ 128 = i := by
    rw [encode]
    omega
  rw [decodeIg_of_lt hw, hh1, hh2, hi]

/-! ### Encoding and decoding -/

/-- The word of a well-formed operation fits its port (R68). -/
theorem encode_lt {c : Cfg} {i : Instr} (h : wellFormed c i = true) :
    encode i < 2 ^ portWidth c (portOf i) := by
  cases i with
  | add h1 h2 => exact (EncodedRow.add h1 h2 c h).1
  | check h1 h2 => exact (EncodedRow.check h1 h2 c h).1
  | reserved op h1 h2 => exact (EncodedRow.reserved op h1 h2 c h).1
  | bset j => exact (EncodedRow.bset j c h).1
  | btest j => exact (EncodedRow.btest j c h).1
  | idxgen h1 h2 i => exact (EncodedRow.idxgen h1 h2 i c h).1

/-- The op code of a command's word selects its row, and each operand is read from the field it was put in. -/
theorem decode_encode {c : Cfg} {i : Instr} (h : wellFormed c i = true) :
    decode c (portOf i) (encode i) = .ok i := by
  have hw := encode_lt h
  cases i with
  | add h1 h2 => exact (decode_cmd_of_lt hw).trans (congrArg _ (decodeCmd_encode_add h1 h2))
  | check h1 h2 => exact (decode_cmd_of_lt hw).trans (congrArg _ (decodeCmd_encode_check h1 h2))
  | reserved op h1 h2 =>
    exact (decode_cmd_of_lt hw).trans (congrArg _ (decodeCmd_encode_reserved op h1 h2))
  | bset j => exact (decode_ba_of_lt hw).trans (congrArg _ (decodeBa_encode_bset hw))
  | btest j => exact (decode_ba_of_lt hw).trans (congrArg _ (decodeBa_encode_btest hw))
  | idxgen h1 h2 i => exact (decode_ig_of_lt hw).trans (congrArg _ (decodeIg_encode hw))

/-- Settles O1: the word fits its port, and each field is read back from where it was put. -/
theorem decodeOfEncodeIsTheOperation : Obligations.DecodeOfEncodeIsTheOperation :=
  fun _ _ => decode_encode

/-- Settles O2: by the format of the port; the operands are taken out of fields that together make up the word. -/
theorem encodeOfDecodeIsTheWord : Obligations.EncodeOfDecodeIsTheWord := by
  unfold Obligations.EncodeOfDecodeIsTheWord
  intro c p w i h
  have hw := lt_of_decode h
  have hwf := wellFormed_of_decode h
  obtain ⟨rfl, rfl⟩ | ⟨rfl, rfl⟩ | ⟨rfl, rfl⟩ := decode_cases h
  · obtain ⟨hp, he⟩ := encode_decodeCmd hw
    exact ⟨hp, he, hwf⟩
  · obtain ⟨hp, he⟩ := encode_decodeBa hw
    exact ⟨hp, he, hwf⟩
  · exact ⟨rfl, encode_decodeIg hw, hwf⟩

/-- Settles O4: each word is the encoding of its operation. -/
theorem writtenOutWordsDecode : Obligations.WrittenOutWordsDecode :=
  ⟨decode_encode (i := .add 3 4) rfl, decode_encode (i := .check 3 4) rfl,
    decode_encode (i := .reserved .op3 1 1) rfl, decode_encode (i := .bset 7) rfl,
    decode_encode (i := .btest 6) rfl, decode_encode (i := .idxgen 3 4 2) rfl⟩

/-! ### The rows of the op code table (R69) -/

/-- The mnemonics of the table's rows that a word matches. -/
def matchingRows (p : Port) (w : Nat) : List String :=
  (tableRows.filter fun r => r.matches p w).map (·.mnemonic)

/-- A set bit 1 is an op code of at least 2. -/
theorem and_two_eq_two_iff (w : Nat) : w &&& 2 = 2 ↔ 2 ≤ w % 4 := by
  constructor
  · intro h
    have hand : (w &&& 3) &&& 2 = 2 := by rw [Nat.and_assoc]; exact h
    rw [EncodedRow.and_three] at hand
    exact hand ▸ Nat.and_le_left
  · exact fun h => EncodedRow.and_two (by omega)

/-- The two low bits of a command word select its row, and no other row of the format matches (R63, R69). -/
theorem matchingRows_cmd (w : Nat) : matchingRows .cmd w = [mnemonicOf (decodeCmd w)] := by
  obtain h | h | ⟨op, h⟩ := op_cases w
  · simp [decodeCmd_of_op_zero h, matchingRows, tableRows, TableRow.matches, EncodedRow.and_three,
      and_two_eq_two_iff, h, mnemonicOf]
  · simp [decodeCmd_of_op_one h, matchingRows, tableRows, TableRow.matches, EncodedRow.and_three,
      and_two_eq_two_iff, h, mnemonicOf]
  · have hop := two_le_reservedOp_code op
    simp [decodeCmd_of_op_reserved h, matchingRows, tableRows, TableRow.matches,
      EncodedRow.and_three, and_two_eq_two_iff, h, hop, mnemonicOf, show op.code.toNat ≠ 0 by omega,
      show op.code.toNat ≠ 1 by omega]

theorem mnemonicOf_decodeCmd (w : Nat) :
    (w % 4 = 0 ↔ mnemonicOf (decodeCmd w) = "ADD") ∧
    (w % 4 = 1 ↔ mnemonicOf (decodeCmd w) = "CHECK") ∧
    (2 ≤ w % 4 ↔ mnemonicOf (decodeCmd w) = "reserved__ILLEGAL_OP") := by
  obtain h | h | ⟨op, h⟩ := op_cases w
  · simp [decodeCmd_of_op_zero h, mnemonicOf, h]
  · simp [decodeCmd_of_op_one h, mnemonicOf, h]
  · have hop := two_le_reservedOp_code op
    rw [decodeCmd_of_op_reserved h, h]
    simp [mnemonicOf]
    omega

/-- Bit 0 of a BA word selects its row, and no other row of the format matches (R65, R69). -/
theorem matchingRows_ba {c : Cfg} {w : Nat} (hw : w < 2 ^ portWidth c .ba) :
    matchingRows .ba w = [mnemonicOf (decodeBa c w)] := by
  obtain h | h := Nat.mod_two_eq_zero_or_one w
  · simp [decodeBa_of_even hw h, matchingRows, tableRows, TableRow.matches, Nat.and_one_is_mod, h,
      mnemonicOf]
  · simp [decodeBa_of_odd hw h, matchingRows, tableRows, TableRow.matches, Nat.and_one_is_mod, h,
      mnemonicOf]

theorem mnemonicOf_decodeBa {c : Cfg} {w : Nat} (hw : w < 2 ^ portWidth c .ba) :
    (w % 2 = 1 ↔ mnemonicOf (decodeBa c w) = "BSET") ∧
    (w % 2 = 0 ↔ mnemonicOf (decodeBa c w) = "BTEST") := by
  obtain h | h := Nat.mod_two_eq_zero_or_one w
  · simp [decodeBa_of_even hw h, mnemonicOf, h]
  · simp [decodeBa_of_odd hw h, mnemonicOf, h]

/-- Every IG word matches the one row of its format, which fixes no bit (R66, R69). -/
theorem matchingRows_ig (w : Nat) : matchingRows .ig w = ["IDXGEN"] := by
  simp [matchingRows, tableRows, TableRow.matches]

/-- Settles O3: by port; the bits that select the operation are those that the rows of its format fix. -/
theorem everyWordMatchesExactlyOneRow : Obligations.EveryWordMatchesExactlyOneRow := by
  unfold Obligations.EveryWordMatchesExactlyOneRow
  intro c p w hw
  cases p with
  | cmd =>
    exact ⟨decodeCmd w, decode_cmd_of_lt hw, matchingRows_cmd w, fun _ => mnemonicOf_decodeCmd w,
      (fun h => nomatch h), (fun h => nomatch h)⟩
  | ba =>
    exact ⟨decodeBa c w, decode_ba_of_lt hw, matchingRows_ba hw, (fun h => nomatch h),
      fun _ => mnemonicOf_decodeBa hw, (fun h => nomatch h)⟩
  | ig =>
    exact ⟨decodeIg c w, decode_ig_of_lt hw, matchingRows_ig w, (fun h => nomatch h),
      (fun h => nomatch h), fun _ => rfl⟩

/-! ### Every input is answered by a next state (R64, R69, R123) -/

@[simp] theorem raiseIndexRange_inputs (j : Nat) (s : State) :
    (raiseIndexRange j s).inputs = s.inputs := by
  obtain ⟨-, -, -, -, -, -, -, -, -, -, hinputs⟩ := raiseIndexRange_spec j s
  exact hinputs

theorem exec_keeps_inputs {i : Instr} {s t : State} (h : exec i s = .next t) :
    t.inputs = s.inputs := by
  cases execEffect_of_exec h with
  | outOfRange => exact raiseIndexRange_inputs _ _
  | _ => rfl

/-- The outcome is a next state in which `xs` is still to be driven. -/
def GoesOn (xs : List Input) (o : Host.Outcome State Fault Refusal) : Prop :=
  ∃ t, o = .next t ∧ t.inputs = xs

theorem goesOn_next (s : State) : GoesOn s.inputs (.next s) := ⟨s, rfl, rfl⟩

theorem goesOn_runWord {p : Port} {w : Nat} {s : State} (hw : w < 2 ^ portWidth s.cfg p) :
    GoesOn s.inputs (runWord p w s) := by
  obtain ⟨i, hi⟩ := decode_of_lt hw
  obtain ⟨t, ht⟩ := exec_gives_next i s
  exact ⟨t, (runWord_of_decode hi).trans ht, exec_keeps_inputs ht⟩

theorem goesOn_commandEdge (w : CmdWord) (s : State) : GoesOn s.inputs (commandEdge w s) := by
  obtain ⟨-, -, ho⟩ | ⟨-, -, ho⟩ | ⟨-, ho⟩ := commandEdge_cases (w := w) (s := s) rfl <;> rw [ho]
  · exact goesOn_runWord (s := s.setHeld []) w.isLt
  · exact goesOn_runWord (s := (s.setHeld []).advanceDraws) (BitVec.isLt _)
  · exact goesOn_next (s.setHeld _)

theorem goesOn_commandLow (s : State) : GoesOn s.inputs (commandLow s) := by
  obtain ⟨-, ho⟩ | ⟨-, -, ho | ⟨v, -, ho⟩⟩ := commandLow_cases (s := s) rfl <;> rw [ho]
  · exact goesOn_next s
  · exact goesOn_next (s.setHeld []).advanceDraws
  · exact goesOn_runWord (s := (s.setHeld []).advanceDraws) v.isLt

theorem responseEdge_inputs (s : State) : (responseEdge s).inputs = s.inputs := by
  obtain ⟨-, h⟩ | ⟨-, h⟩ := responseEdge_cases s <;> rw [h] <;> rfl

theorem responseLow_inputs (s : State) : (responseLow s).inputs = s.inputs := by
  obtain ⟨-, h⟩ | ⟨-, -, h | h⟩ := responseLow_cases s <;> rw [h] <;> rfl

theorem goesOn_driveInput {x : Input} {s : State} (hx : x.fits s.cfg) :
    GoesOn s.inputs (driveInput x s) := by
  cases x with
  | rst => exact goesOn_next (applyReset s)
  | cmd w => exact goesOn_commandEdge w s
  | cmdLow => exact goesOn_commandLow s
  | rspReady => exact ⟨responseEdge s, rfl, responseEdge_inputs s⟩
  | rspLow => exact ⟨responseLow s, rfl, responseLow_inputs s⟩
  | ba w => exact goesOn_runWord hx
  | ig w => exact goesOn_runWord hx

/-- Settles O53: every word of a port decodes, every operation gives a next state, and neither an operation nor an edge
changes what is still to be driven. -/
theorem everyWordOfAPortIsStepped : Obligations.EveryWordOfAPortIsStepped := by
  unfold Obligations.EveryWordOfAPortIsStepped
  intro s hb hfits
  cases hi : s.inputs with
  | nil => exact ⟨s, step_of_no_input hb hi, hi⟩
  | cons x xs =>
    rw [step_of_input hb hi]
    exact goesOn_driveInput (s := s.setInputs xs) (hfits x (by rw [hi]; rfl))

/-! ### One edge of a port (R60, R61, R145) -/

/-- Settles O6: the word decodes, so the edge of its port carries the operation out. -/
theorem stepRunsThePartWord : Obligations.StepRunsThePartWord := by
  unfold Obligations.StepRunsThePartWord
  rintro s w rest i hb (⟨hin, hi⟩ | ⟨hin, hi⟩)
  · exact (step_of_input hb hin).trans (runWord_of_decode (s := s.setInputs rest) hi)
  · exact (step_of_input hb hin).trans (runWord_of_decode (s := s.setInputs rest) hi)

/-- The port is not ready exactly in the fault state or with a full response queue (R124, R147). -/
theorem cmdReady_eq_false_iff (s : State) :
    cmdReady s = false ↔ s.fault = true ∨ s.cfg.rspqDepth ≤ s.rspq.length := by
  rw [← Bool.not_eq_true, cmdReady_iff, not_and_or, Bool.not_eq_false, Nat.not_lt]

theorem commandEdge_of_not_ready {s : State} (h : cmdReady s = false) (w : CmdWord) :
    commandEdge w s = .next (s.setHeld (presented s.heldWords w)) := by
  simp [commandEdge, h]

/-- Settles O7: the edge of a port that is not ready writes the words presented and nothing else. -/
theorem unreadyPortHoldsTheCommand : Obligations.UnreadyPortHoldsTheCommand := by
  unfold Obligations.UnreadyPortHoldsTheCommand
  intro s w rest hb hin hnot
  have hready : cmdReady (s.setInputs rest) = false := (cmdReady_eq_false_iff _).mpr hnot
  exact ⟨_, (step_of_input hb hin).trans (commandEdge_of_not_ready hready w),
    rfl, rfl, rfl, rfl, rfl, rfl, rfl, rfl, rfl, rfl, rfl, fun _ => mem_presented⟩

/-- Settles O55: by what an edge with `rsp_ready = 0` can do; the two clauses exclude each other. -/
theorem loweredRspReadyTakesTheOldestOrNone :
    Obligations.LoweredRspReadyTakesTheOldestOrNone := by
  unfold Obligations.LoweredRspReadyTakesTheOldestOrNone
  intro s rest hb hin
  refine ⟨responseLow (s.setInputs rest), step_of_input hb hin, ?_⟩
  obtain ⟨hnone, ht⟩ | ⟨hq, hheld, ht⟩ := responseLow_cases (s.setInputs rest)
  · rw [ht]
    refine ⟨fun _ => rfl, fun hheld b q hq => ?_⟩
    simp [hheld, hq] at hnone
  · have hearly : ¬(s.heldReady = false ∨ s.rspq = []) := by simpa using ⟨hheld, hq⟩
    refine ⟨fun hnone => absurd hnone hearly, fun _ b q hq => ?_⟩
    obtain ht | ht := ht <;> rw [ht]
    · exact ⟨.inl (congrArg List.tail hq), rfl, rfl, rfl, rfl, rfl, rfl, rfl, rfl, rfl, rfl, rfl⟩
    · exact ⟨.inr hq, rfl, rfl, rfl, rfl, rfl, rfl, rfl, rfl, rfl, rfl, rfl⟩

/-- Settles O56: by what an edge with `cmd_valid = 0` can do; a held word has 130 bits, so it decodes. -/
theorem loweredCmdValidAcceptsAPresentedWordOrNone :
    Obligations.LoweredCmdValidAcceptsAPresentedWordOrNone := by
  unfold Obligations.LoweredCmdValidAcceptsAPresentedWordOrNone
  intro s rest hb hin
  have hstep : step s = commandLow (s.setInputs rest) := step_of_input hb hin
  rw [hstep]
  have hearly : s.heldWords ≠ [] → cmdReady s = true →
      ¬(s.heldWords = [] ∨ cmdReady s = false) := by simp +contextual
  obtain ⟨hnone, ho⟩ | ⟨hready, hheld, ho⟩ := commandLow_cases (s := s.setInputs rest) rfl
  · exact ⟨fun _ => ho, fun hheld hready => absurd hnone (hearly hheld hready)⟩
  · refine ⟨fun hnone => absurd hnone (hearly hheld hready),
      fun _ _ => ho.imp_right fun ⟨v, hv, hrun⟩ => ?_⟩
    have hi := decode_cmd s.cfg v
    exact ⟨v, hv, _, hi, hrun.trans (runWord_of_decode hi)⟩

/-! ### A reserved op code (R64, R122) -/

/-- The zero-extended op code has the value of the op code. -/
theorem zext64Op_toNat (op : BitVec 2) : (zext64Op op).toNat = op.toNat :=
  BitVec.toNat_setWidth_of_le (by decide)

/-- Settles O17: an accepted reserved command is one `raiseFault`, with the op code as info. -/
theorem reservedOpRaisesIllegalOp : Obligations.ReservedOpRaisesIllegalOp := by
  unfold Obligations.ReservedOpRaisesIllegalOp
  intro s op h1 h2 hfault hroom
  have hready : cmdReady s = true := (cmdReady_iff s).mpr ⟨hfault, hroom⟩
  exact ⟨_, exec_reserved_of_ready hready op h1 h2, rfl, rfl, zext64Op_toNat op.code,
    rfl, rfl, rfl, rfl, rfl⟩

end Sys2Proof.Machine

/-! Family 40_index_generator: the two readings of the index formula (R81, R83) and its incremental forms (R87), the index set of
a pair (R85), and the order of the rounds (R84, R93). -/

namespace Sys2Proof.Machine

/-! ### The index formula (R80, R81) -/

theorem idx_of_exact {c : Cfg} (h : c.indexArith = .EXACT) (h1 h2 : Half) (i : Nat) :
    idx c h1 h2 i = idxExact c.M h1 h2 i := by
  rw [idx, h]

theorem idx_of_wrap64 {c : Cfg} (h : c.indexArith = .WRAP64) (h1 h2 : Half) (i : Nat) :
    idx c h1 h2 i = idxWrap64 c.M h1 h2 i := by
  rw [idx, h]

/-- Reducing the product first makes no difference: WRAP64 is one reduction of the exact sum. -/
theorem idxWrap64_eq_sum_mod (M : Nat) (h1 h2 : Half) (i : Nat) :
    idxWrap64 M h1 h2 i = (h1.toNat + i * h2.toNat) % 2 ^ 64 % M :=
  congrArg (· % M) (Nat.add_mod_mod h1.toNat (i * h2.toNat) (2 ^ 64))

/-- Settles O21: IDXGEN is one `setIndex` of the index function. -/
theorem idxgenGivesTheIndex : Obligations.IdxgenGivesTheIndex := by
  unfold Obligations.IdxgenGivesTheIndex
  intro s h1 h2 i
  refine ⟨_, idx s.cfg h1 h2 i, exec_idxgen h1 h2 i s, rfl, fun hE => idx_of_exact hE h1 h2 i,
    fun hW => ?_, fun hM => idx_lt_M hM h1 h2 i,
    rfl, rfl, rfl, rfl, rfl, rfl, rfl, rfl, rfl, rfl, rfl⟩
  have hidx : idx s.cfg h1 h2 i = idxWrap64 s.cfg.M h1 h2 i := idx_of_wrap64 hW h1 h2 i
  exact ⟨hidx, hidx.trans (idxWrap64_eq_sum_mod s.cfg.M h1 h2 i)⟩

/-- Settles O35: a generated index is in range, so BSET and BTEST take it without a fault. -/
theorem generatedIndexNeverFaults : Obligations.GeneratedIndexNeverFaults := by
  unfold Obligations.GeneratedIndexNeverFaults
  intro s h1 h2 i hM
  have hlt : idx s.cfg h1 h2 i < s.cfg.M := idx_lt_M hM h1 h2 i
  exact ⟨hlt, fun hf => ⟨⟨_, exec_bset_in_range hf hlt, hf⟩, ⟨_, exec_btest_in_range hf hlt, hf⟩⟩⟩

/-! ### Where EXACT and WRAP64 agree (R83) -/

/-- A sum below 2^64 does not wrap. -/
theorem idxExact_eq_idxWrap64_of_sum_lt (M : Nat) {i : Nat} {h1 h2 : Half}
    (h : h1.toNat + i * h2.toNat < 2 ^ 64) : idxExact M h1 h2 i = idxWrap64 M h1 h2 i := by
  rw [idxWrap64_eq_sum_mod, Nat.mod_eq_of_lt h, idxExact]

/-- A reduction mod 2^64 does not change the residue mod a divisor of 2^64. -/
theorem idxExact_eq_idxWrap64_of_dvd {M : Nat} (h : M ∣ 2 ^ 64) (i : Nat) (h1 h2 : Half) :
    idxExact M h1 h2 i = idxWrap64 M h1 h2 i := by
  rw [idxWrap64_eq_sum_mod, Nat.mod_mod_of_dvd _ h, idxExact]

/-- A sum below 2^64 gives the index of the formula, whatever the arithmetic. -/
theorem idx_of_sum_lt (c : Cfg) {h1 h2 : Half} {i : Nat}
    (h : h1.toNat + i * h2.toNat < 2 ^ 64) : idx c h1 h2 i = (h1.toNat + i * h2.toNat) % c.M := by
  cases harith : c.indexArith with
  | EXACT => exact idx_of_exact harith h1 h2 i
  | WRAP64 => rw [idx_of_wrap64 harith, ← idxExact_eq_idxWrap64_of_sum_lt c.M h, idxExact]

/-- With a product of 0, as in round 0 and for h2 = 0, the index is h1 mod M. -/
theorem idx_of_product_zero (c : Cfg) (h1 : Half) {h2 : Half} {i : Nat} (h : i * h2.toNat = 0) :
    idx c h1 h2 i = h1.toNat % c.M := by
  rw [idx_of_sum_lt c (by rw [h]; exact h1.isLt), h, Nat.add_zero]

/-- A command of one round has the one index h1 mod M. -/
theorem indices_of_one_round {c : Cfg} (hK : c.K = 1) (h1 h2 : Half) :
    indices c h1 h2 = [h1.toNat % c.M] := by
  rw [indices, hK, List.range_one, List.map_singleton, idx_of_product_zero c h1 (Nat.zero_mul _)]

/-- Settles O36: with h1 = 2^64 - 1, h2 = 1 and i = 1 the sum is 2^64, which WRAP64 reads as 0; the reference M does not
divide it. -/
theorem exactAndWrap64Agree : Obligations.ExactAndWrap64Agree := by
  unfold Obligations.ExactAndWrap64Agree
  refine ⟨fun M _ _ _ h => idxExact_eq_idxWrap64_of_sum_lt M h,
    fun _ i h1 h2 h => idxExact_eq_idxWrap64_of_dvd h i h1 h2, fun c h1 h2 hK => ?_,
    rfl, 1, BitVec.allOnes 64, 1, by decide⟩
  exact (indices_of_one_round (c := { c with indexArith := .EXACT }) hK h1 h2).trans
    (indices_of_one_round (c := { c with indexArith := .WRAP64 }) hK h1 h2).symm

/-! ### Forming the indices round by round (R87) -/

theorem idxExact_zero (M : Nat) (h1 h2 : Half) : idxExact M h1 h2 0 = h1.toNat % M := by
  rw [idxExact, Nat.zero_mul, Nat.add_zero]

/-- The sum of the next round is h2 more. -/
theorem idxExact_succ (M : Nat) (h1 h2 : Half) (i : Nat) :
    idxExact M h1 h2 (i + 1) = (idxExact M h1 h2 i + h2.toNat % M) % M := by
  rw [idxExact, idxExact, ← Nat.add_mod, Nat.add_one_mul, Nat.add_assoc]

/-- An accumulator of 64 bits holds the sum of round i mod 2^64. -/
theorem toNat_iterate_add (h1 h2 : Half) (i : Nat) :
    ((fun s : Half => s + h2)^[i] h1).toNat = (h1.toNat + i * h2.toNat) % 2 ^ 64 := by
  induction i with
  | zero => rw [Function.iterate_zero_apply, Nat.zero_mul, Nat.add_zero, Nat.mod_eq_of_lt h1.isLt]
  | succ i ih =>
    rw [Function.iterate_succ_apply', BitVec.toNat_add, ih, Nat.mod_add_mod, Nat.add_one_mul,
      Nat.add_assoc]

theorem idxWrap64_eq_iterate_mod (M : Nat) (h1 h2 : Half) (i : Nat) :
    idxWrap64 M h1 h2 i = ((fun s : Half => s + h2)^[i] h1).toNat % M := by
  rw [toNat_iterate_add, idxWrap64_eq_sum_mod]

/-- Settles O37: the EXACT recurrence fails for WRAP64 at M = 3, h1 = 2^64 - 1 and h2 = 1, where the first index is 0 and the
next one, whose sum wraps to 0, is 0 and not 1. -/
theorem indicesCanBeFormedIncrementally : Obligations.IndicesCanBeFormedIncrementally := by
  unfold Obligations.IndicesCanBeFormedIncrementally
  exact ⟨fun M h1 h2 => ⟨idxExact_zero M h1 h2, idxExact_succ M h1 h2⟩, idxWrap64_eq_iterate_mod,
    3, 0, BitVec.allOnes 64, 1, by decide, by decide⟩

/-! ### The index set of a pair (R85) -/

@[simp] theorem length_indices (c : Cfg) (h1 h2 : Half) : (indices c h1 h2).length = c.K := by
  rw [indices, List.length_map, List.length_range]

/-- Round 0 gives the index h1 mod M. -/
theorem mod_mem_indices {c : Cfg} (hK : 1 ≤ c.K) (h1 h2 : Half) :
    h1.toNat % c.M ∈ indices c h1 h2 :=
  List.mem_map.mpr ⟨0, List.mem_range.mpr hK, idx_of_product_zero c h1 (Nat.zero_mul _)⟩

/-- The distinct indices are some of the M indices of the array. -/
theorem card_indices_le_M {c : Cfg} (hM : 1 ≤ c.M) (h1 h2 : Half) :
    (indices c h1 h2).toFinset.card ≤ c.M := by
  have hsub : (indices c h1 h2).toFinset ⊆ Finset.range c.M := fun j hj =>
    Finset.mem_range.mpr (lt_M_of_mem_indices hM (List.mem_toFinset.mp hj))
  exact (Finset.card_le_card hsub).trans_eq (Finset.card_range c.M)

theorem card_indices_le_K (c : Cfg) (h1 h2 : Half) : (indices c h1 h2).toFinset.card ≤ c.K :=
  (List.toFinset_card_le _).trans_eq (length_indices c h1 h2)

/-- With h2 = 0 every round gives the index of round 0. -/
theorem eq_mod_of_mem_indices_zero {c : Cfg} {h1 : Half} {j : Nat} (hj : j ∈ indices c h1 0) :
    j = h1.toNat % c.M := by
  obtain ⟨i, -, rfl⟩ := List.mem_map.mp hj
  exact idx_of_product_zero c h1 (Nat.mul_zero i)

/-- Settles O38: the index of round 0 is always there, and for h2 = 0 no other. -/
theorem indexSetHasOneToMinKMMembers : Obligations.IndexSetHasOneToMinKMMembers := by
  unfold Obligations.IndexSetHasOneToMinKMMembers
  intro c h1 h2 hc
  obtain ⟨hM, -, hK⟩ := hc
  have hmem : h1.toNat % c.M ∈ (indices c h1 h2).toFinset :=
    List.mem_toFinset.mpr (mod_mem_indices hK h1 h2)
  refine ⟨length_indices c h1 h2, Finset.card_pos.mpr ⟨_, hmem⟩,
    le_min (card_indices_le_K c h1 h2) (card_indices_le_M hM h1 h2), ?_⟩
  rintro rfl
  refine Finset.card_eq_one.mpr ⟨_, Finset.eq_singleton_iff_unique_mem.mpr ⟨hmem, fun j hj => ?_⟩⟩
  exact eq_mod_of_mem_indices_zero (List.mem_toFinset.mp hj)

/-! ### The order of the rounds (R84, R93) -/

section
variable {js ks : List Nat} (h : ∀ k, k ∈ js ↔ k ∈ ks)
include h

/-- The hit bit depends only on which indices are tested. -/
theorem hitOf_eq_of_mem_iff (m : Memory) : hitOf m js = hitOf m ks := by
  rw [Bool.eq_iff_iff, hitOf_eq_true_iff, hitOf_eq_true_iff]
  exact forall_congr' fun k => imp_congr_left (h k)

/-- In canonical form the bit array afterwards depends only on which indices are set. -/
theorem Memory.setAll_eq_of_mem_iff {m : Memory} (hm : Memory.wf m = true) :
    Memory.setAll m js = Memory.setAll m ks := by
  refine Memory.ext_of_read (Memory.wf_setAll hm js) (Memory.wf_setAll hm ks) fun k => ?_
  rw [Memory.read_setAll, Memory.read_setAll, decide_eq_decide.mpr (h k)]

end

/-- Settles O39: a permutation has the same members. -/
theorem orderOfTheRoundsIsUnobservable : Obligations.OrderOfTheRoundsIsUnobservable := by
  unfold Obligations.OrderOfTheRoundsIsUnobservable
  intro c h1 h2 m js hperm
  have hmem : ∀ k, k ∈ js ↔ k ∈ indices c h1 h2 := fun _ => hperm.mem_iff
  exact ⟨hitOf_eq_of_mem_iff hmem m, Memory.setAll_eq_of_mem_iff hmem⟩

end Sys2Proof.Machine

/-! Family 41_bit_array: BSET and BTEST inside the array, outside it and in the fault state (R91, R92, R95), and the laws of
the bit array (R93, R94). -/

namespace Sys2Proof.Machine

/-! ### Writing a 1 into the bit array -/

/-- A BSET leaves every other bit as it was (R94). -/
theorem Memory.read_write_true_of_ne {j k : Nat} (h : k ≠ j) (m : Memory) :
    Memory.read (Memory.write m j true) k = Memory.read m k := by
  rw [Memory.read_write_true, if_neg h]

/-- A bit that was set reads 1 (R94). -/
theorem Memory.read_write_true_self (m : Memory) (j : Nat) :
    Memory.read (Memory.write m j true) j = true := by
  rw [Memory.read_write_true, if_pos rfl]

/-! ### The port of the part BA (R65) -/

section
variable {s t : State} {j : Nat} {i : Instr} (hi : i = .bset j ∨ i = .btest j)
include hi

/-- In the fault state the part BA performs nothing and shows no value (R124, log 3). -/
theorem exec_bitOperation_faulted (hf : s.fault = true) : exec i s = .next (s.setRdata none) := by
  obtain rfl | rfl := hi
  · exact exec_bset_faulted hf j
  · exact exec_btest_faulted hf j

/-- Outside the array, an index that fits in 64 bits is recorded as the info of the fault (R121). -/
theorem exec_bitOperation_out_of_range (hf : s.fault = false) (hj : s.cfg.M ≤ j)
    (hw : j < 2 ^ 64) :
    exec i s = .next (raiseFault causeIndexRange (BitVec.ofNat 64 j) (s.setRdata none)) := by
  rw [← raiseIndexRange_narrow hw]
  obtain rfl | rfl := hi
  · exact exec_bset_out_of_range hf hj
  · exact exec_btest_out_of_range hf hj

/-- What an operation of the part BA can do: only the output changes (it is not performed, or reads a bit), INDEX_RANGE
is raised, or one bit is set. -/
theorem exec_bitOperation_cases (h : exec i s = .next t) :
    (∃ b, t = s.setRdata b) ∨
    (s.fault = false ∧ s.cfg.M ≤ j ∧ t = raiseIndexRange j (s.setRdata none)) ∨
    (i = .bset j ∧ j < s.cfg.M ∧ t = (s.setRdata none).setBits (Memory.write s.bits j true)) := by
  obtain rfl | rfl := hi
  · rw [exec_bset] at h
    obtain ⟨-, ho⟩ | ⟨hf, hj, ho⟩ | ⟨-, hj, ho⟩ := baOperation_cases h <;> cases ho
    · exact .inl ⟨none, rfl⟩
    · exact .inr (.inl ⟨hf, hj, rfl⟩)
    · exact .inr (.inr ⟨rfl, hj, rfl⟩)
  · rw [exec_btest] at h
    obtain ⟨-, ho⟩ | ⟨hf, hj, ho⟩ | ⟨-, -, ho⟩ := baOperation_cases h <;> cases ho
    · exact .inl ⟨none, rfl⟩
    · exact .inr (.inl ⟨hf, hj, rfl⟩)
    · exact .inl ⟨_, rfl⟩

end

/-- BTEST never changes a bit, in any state (R94). -/
theorem exec_btest_keeps_bits {s t : State} {j : Nat} (h : exec (.btest j) s = .next t) :
    t.bits = s.bits := by
  obtain ⟨b, rfl⟩ | ⟨-, -, rfl⟩ | ⟨hi, -, -⟩ := exec_bitOperation_cases (.inr rfl) h
  · rfl
  · exact raiseIndexRange_bits j _
  · cases hi

/-- Settles O18: in range, one write of a 1; out of range, one `raiseFault`. -/
theorem bsetMarksOneBit : Obligations.BsetMarksOneBit := by
  unfold Obligations.BsetMarksOneBit
  intro s j hf
  constructor
  · intro hj
    exact ⟨_, exec_bset_in_range hf hj, Memory.read_write_true_self s.bits j,
      fun _ hk => Memory.read_write_true_of_ne hk s.bits, rfl, hf, rfl, rfl⟩
  · intro hj hw
    exact ⟨_, exec_bitOperation_out_of_range (.inl rfl) hf hj hw, rfl, rfl,
      (BitVec.toNat_ofNat j 64).trans (Nat.mod_eq_of_lt hw), rfl, rfl⟩

/-- Settles O19: in range, the bit is put on `ba_rdata`; out of range, one `raiseFault`. -/
theorem btestReadsOneBit : Obligations.BtestReadsOneBit := by
  unfold Obligations.BtestReadsOneBit
  intro s j hf
  constructor
  · intro hj
    exact ⟨_, exec_btest_in_range hf hj, rfl, rfl, rfl, hf, rfl, rfl⟩
  · intro hj hw
    exact ⟨_, exec_bitOperation_out_of_range (.inr rfl) hf hj hw, rfl, rfl, rfl,
      (BitVec.toNat_ofNat j 64).trans (Nat.mod_eq_of_lt hw), rfl, rfl⟩

/-- Settles O23: by what an operation of the part BA can do; only a BSET in range writes a bit, and only INDEX_RANGE the
fault fields. -/
theorem frameOfBitArrayOperations : Obligations.FrameOfBitArrayOperations := by
  unfold Obligations.FrameOfBitArrayOperations
  intro s t j i h hi
  obtain ⟨b, rfl⟩ | ⟨hf, hj, rfl⟩ | ⟨rfl, hj, rfl⟩ := exec_bitOperation_cases hi h
  · exact ⟨rfl, rfl, rfl, rfl, rfl, rfl, fun _ => rfl, fun _ _ => rfl, fun _ => ⟨rfl, rfl, rfl⟩⟩
  · obtain ⟨-, -, hnarrow, hcfg, hbits, hrspq, -, hig, hwords, hready, hin⟩ :=
      raiseIndexRange_spec j (s.setRdata none)
    refine ⟨hcfg, hrspq, hig, hwords, hready, hin, fun hw => (hnarrow hw).2,
      fun k _ => congrArg (Memory.read · k) hbits, ?_⟩
    rintro (hlt | hfault)
    · exact absurd hj (Nat.not_le.mpr hlt)
    · rw [hf] at hfault
      cases hfault
  · refine ⟨rfl, rfl, rfl, rfl, rfl, rfl, fun _ => rfl, ?_, fun _ => ⟨rfl, rfl, rfl⟩⟩
    rintro k (hk | hle | htest)
    · exact Memory.read_write_true_of_ne hk s.bits
    · exact absurd hle (Nat.not_le.mpr hj)
    · cases htest

/-- Settles O25: nothing is performed, so only the output `ba_rdata` changes. -/
theorem faultStatePerformsNoBitArrayOperation :
    Obligations.FaultStatePerformsNoBitArrayOperation := by
  unfold Obligations.FaultStatePerformsNoBitArrayOperation
  intro s j i hi hf
  exact ⟨_, exec_bitOperation_faulted hi hf, rfl, hf, rfl, rfl, rfl, rfl, rfl⟩

/-! ### Laws of the bit array (R93, R94) -/

/-- Settles O41: BTEST reads the bit that BSET has just written, and BSET leaves the state fault-free. -/
theorem bsetThenBtestReadsOne : Obligations.BsetThenBtestReadsOne := by
  unfold Obligations.BsetThenBtestReadsOne
  refine ⟨fun s j j' hf hj _ => ?_, fun _ _ _ => exec_btest_keeps_bits⟩
  refine ⟨_, _, exec_bset_in_range hf hj, exec_btest_in_range hf hj, ?_,
    fun hne => Memory.read_write_true_of_ne hne s.bits⟩
  exact congrArg some (Memory.read_write_true_self s.bits j)

theorem execAll_cons_of_next {i : Instr} {s t : State} (h : exec i s = .next t)
    (is : List Instr) : execAll (i :: is) s = execAll is t := by
  rw [execAll, h]

/-- BSETs inside the array set their bits one after another: each leaves a fault-free state of the same configuration, so
the next completes too. -/
theorem execAll_bsets {s : State} (hf : s.fault = false) {js : List Nat}
    (hjs : ∀ j ∈ js, j < s.cfg.M) :
    ∃ t, execAll (js.map .bset) s = .next t ∧ t.fault = false ∧
      t.bits = Memory.setAll s.bits js := by
  induction js generalizing s with
  | nil => exact ⟨s, rfl, hf, rfl⟩
  | cons j js ih =>
    obtain ⟨hj, hjs⟩ := List.forall_mem_cons.mp hjs
    obtain ⟨t, hrun, hfault, hbits⟩ :=
      ih (s := (s.setRdata none).setBits (Memory.write s.bits j true)) hf hjs
    exact ⟨t, (execAll_cons_of_next (exec_bset_in_range hf hj) _).trans hrun, hfault, hbits⟩

/-- Settles O40: both sequences leave what `Memory.setAll` leaves, which in canonical form depends only on the members. -/
theorem bsetsOfASequenceSetItsBits : Obligations.BsetsOfASequenceSetItsBits := by
  unfold Obligations.BsetsOfASequenceSetItsBits
  intro s js ks hf hjs hmem
  obtain ⟨t, hrun, hfault, hbits⟩ := execAll_bsets hf hjs
  obtain ⟨u, hrun', -, hbits'⟩ := execAll_bsets hf fun k hk => hjs k ((hmem k).mpr hk)
  refine ⟨t, u, hrun, hrun', hfault, fun k => ?_, fun hwf => ?_⟩
  · rw [hbits, Memory.read_setAll, Bool.or_eq_true, decide_eq_true_eq]
  · rw [hbits, hbits', Memory.setAll_eq_of_mem_iff hmem hwf]

end Sys2Proof.Machine

/-! Family 42_filter_commands: what one ADD, CHECK or reserved command does and leaves (R101, R102, R122), the laws of several
ADDs (R105), and the answers of CHECK along a run (R103, R104, R107). -/

namespace Sys2Proof.Machine

/-! ### The K indices of a command (R100) -/

theorem mem_indices {c : Cfg} {h1 h2 : Half} {j : Nat} :
    j ∈ indices c h1 h2 ↔ ∃ i, i < c.K ∧ idx c h1 h2 i = j := by
  simp [indices]

/-- A block that stops at the first 0 bit computes the same hit (R102, U13). -/
theorem hitEarlyStop_eq_hitOf (m : Memory) (js : List Nat) : hitEarlyStop m js = hitOf m js := by
  induction js with
  | nil => rfl
  | cons j js ih =>
    rw [hitOf_cons, hitEarlyStop, ih]
    cases Memory.read m j <;> rfl

/-- With all bits 0 the hit bit of at least one index is 0. -/
theorem hitOf_eq_false_of_empty {m : Memory} (hm : ∀ j, Memory.read m j = false) {js : List Nat}
    {j : Nat} (hj : j ∈ js) : hitOf m js = false := by
  refine Bool.eq_false_iff.mpr fun hhit => ?_
  have hset := (hitOf_eq_true_iff m js).mp hhit j hj
  rw [hm j] at hset
  cases hset

/-! ### One command: its effect, or nothing (R101, R102, R122) -/

section
variable {s t : State} {h1 h2 : Half}

theorem exec_add_cases (h : exec (.add h1 h2) s = .next t) :
    t = s ∨ t = s.seqDrives.setBits (Memory.setAll s.bits (indices s.cfg h1 h2)) := by
  rw [exec_add] at h
  obtain ⟨-, ht⟩ | ⟨-, ht⟩ := accepted_cases h <;> cases ht
  · exact .inr rfl
  · exact .inl rfl

theorem exec_check_cases (h : exec (.check h1 h2) s = .next t) :
    t = s ∨ t = s.seqDrives.emit (hitOf s.bits (indices s.cfg h1 h2)) := by
  rw [exec_check] at h
  obtain ⟨-, ht⟩ | ⟨-, ht⟩ := accepted_cases h <;> cases ht
  · exact .inr rfl
  · exact .inl rfl

theorem exec_reserved_cases {op : ReservedOp} (h : exec (.reserved op h1 h2) s = .next t) :
    t = s ∨ t = raiseIllegalOp op.code s := by
  rw [exec_reserved] at h
  obtain ⟨-, ht⟩ | ⟨-, ht⟩ := accepted_cases h <;> cases ht
  · exact .inr rfl
  · exact .inl rfl

end

/-- Settles O15: the bits set are the members of the index list. -/
theorem addSetsExactlyItsBits : Obligations.AddSetsExactlyItsBits := by
  unfold Obligations.AddSetsExactlyItsBits
  intro s h1 h2 hfault hroom
  have hready : cmdReady s = true := (cmdReady_iff s).mpr ⟨hfault, hroom⟩
  refine ⟨_, exec_add_of_ready hready h1 h2, fun j => ?_, fun hM => idx_lt_M hM h1 h2,
    rfl, rfl, rfl, rfl⟩
  rw [State.setBits_bits, Memory.read_setAll, Bool.or_eq_true, decide_eq_true_eq, mem_indices]

/-- Settles O16: the bits tested are those of the index list. -/
theorem checkAppendsTheAndOfItsBits : Obligations.CheckAppendsTheAndOfItsBits := by
  unfold Obligations.CheckAppendsTheAndOfItsBits
  intro s h1 h2 hfault hroom
  have hready : cmdReady s = true := (cmdReady_iff s).mpr ⟨hfault, hroom⟩
  refine ⟨_, _, exec_check_of_ready hready h1 h2, rfl, ?_, hitEarlyStop_eq_hitOf _ _,
    rfl, rfl, rfl, rfl⟩
  rw [hitOf_eq_true_iff, indices, List.forall_mem_map]
  simp only [List.mem_range]

/-- Settles O22: each command has its effect, or nothing changes; ADD alone writes bits, those of its index list. -/
theorem frameOfFilterCommands : Obligations.FrameOfFilterCommands := by
  unfold Obligations.FrameOfFilterCommands
  intro s t h1 h2 op i h
  refine ⟨?_, ?_, ?_, ?_, ?_⟩
  · rintro (rfl | rfl | rfl)
    · obtain rfl | rfl := exec_add_cases h <;> exact ⟨rfl, rfl, rfl, rfl, rfl⟩
    · obtain rfl | rfl := exec_check_cases h <;> exact ⟨rfl, rfl, rfl, rfl, rfl⟩
    · obtain rfl | rfl := exec_reserved_cases h <;> exact ⟨rfl, rfl, rfl, rfl, rfl⟩
  · rintro (rfl | rfl)
    · obtain rfl | rfl := exec_add_cases h
      · exact .inl ⟨rfl, rfl⟩
      · exact .inr ⟨rfl, rfl⟩
    · obtain rfl | rfl := exec_check_cases h
      · exact .inl ⟨rfl, rfl⟩
      · exact .inr ⟨rfl, rfl⟩
  · rintro rfl
    obtain rfl | rfl := exec_add_cases h
    · exact ⟨rfl, rfl, rfl, rfl, fun _ _ => rfl⟩
    · refine ⟨rfl, rfl, rfl, rfl, fun k hk => ?_⟩
      rw [State.setBits_bits, Memory.read_setAll, decide_eq_false hk, Bool.or_false]
  · rintro rfl
    obtain rfl | rfl := exec_check_cases h
    · exact ⟨rfl, rfl, rfl, .inl rfl, fun _ => rfl⟩
    · exact ⟨rfl, rfl, rfl, .inr ⟨_, rfl⟩, fun _ => rfl⟩
  · rintro rfl
    obtain rfl | rfl := exec_reserved_cases h <;> exact ⟨rfl, rfl, rfl, fun _ => rfl⟩

/-! ### Several ADDs (R105) -/

/-- Setting two sequences in turn is setting their concatenation. -/
theorem Memory.setAll_append (m : Memory) (js ks : List Nat) :
    Memory.setAll m (js ++ ks) = Memory.setAll (Memory.setAll m js) ks :=
  List.foldl_append

/-- An ADD leaves the port ready, so the next ADD completes too. -/
theorem exec_two_adds {s : State} (hready : cmdReady s = true) (a1 a2 b1 b2 : Half) :
    ∃ t u, exec (.add a1 a2) s = .next t ∧ exec (.add b1 b2) t = .next u ∧
      t.bits = Memory.setAll s.bits (indices s.cfg a1 a2) ∧
      u.bits = Memory.setAll s.bits (indices s.cfg a1 a2 ++ indices s.cfg b1 b2) :=
  ⟨_, _, exec_add_of_ready hready a1 a2, exec_add_of_ready (s := s.seqDrives.setBits _) hready b1 b2,
    rfl, (Memory.setAll_append _ _ _).symm⟩

/-- Settles O32: an index list followed by itself has the same members. -/
theorem addTwiceIsAddOnce : Obligations.AddTwiceIsAddOnce := by
  unfold Obligations.AddTwiceIsAddOnce
  intro s h1 h2 hwf hready
  obtain ⟨t, u, ht, hu, htbits, hubits⟩ := exec_two_adds hready h1 h2 h1 h2
  refine ⟨t, u, ht, hu, ?_⟩
  rw [htbits, hubits]
  exact Memory.setAll_eq_of_mem_iff (fun k => by rw [List.mem_append, or_self]) hwf

/-- Settles O33: the concatenations of two index lists in either order have the same members. -/
theorem addsCommute : Obligations.AddsCommute := by
  unfold Obligations.AddsCommute
  intro s a1 a2 b1 b2 hwf hready
  obtain ⟨t, u, ht, hu, -, hubits⟩ := exec_two_adds hready a1 a2 b1 b2
  obtain ⟨t', u', ht', hu', -, hubits'⟩ := exec_two_adds hready b1 b2 a1 a2
  refine ⟨t, u, t', u', ht, hu, ht', hu', ?_⟩
  rw [hubits, hubits']
  exact Memory.setAll_eq_of_mem_iff (fun k => by rw [List.mem_append, List.mem_append, or_comm]) hwf

/-! ### How many bits an ADD sets (R105) -/

/-- The distinct indices of a sequence whose bit is 0. -/
def clearIndices (m : Memory) (js : List Nat) : Finset Nat :=
  js.toFinset.filter fun j => Memory.read m j = false

theorem mem_clearIndices {m : Memory} {js : List Nat} {j : Nat} :
    j ∈ clearIndices m js ↔ j ∈ js ∧ Memory.read m j = false := by
  rw [clearIndices, Finset.mem_filter, List.mem_toFinset]

/-- Once the first index of a sequence is set, it is no longer clear, and the others are as before. -/
theorem clearIndices_write (m : Memory) (j : Nat) (js : List Nat) :
    clearIndices (Memory.write m j true) js = (clearIndices m (j :: js)).erase j := by
  ext k
  rw [Finset.mem_erase, mem_clearIndices, mem_clearIndices, Memory.read_write_true]
  by_cases hk : k = j <;> simp [hk]

/-- In canonical form a write of a 1 lists one entry more when the bit was 0, and none when it was 1. -/
theorem Memory.length_write_true {m : Memory} (h : Memory.wf m = true) (j : Nat) :
    (Memory.write m j true).length = m.length + if Memory.read m j then 0 else 1 := by
  induction m with
  | nil => simp [Memory.write]
  | cons e m ih =>
    obtain ⟨a, c⟩ := e
    obtain ⟨rfl, habove⟩ := (Memory.wf_cons a c m).mp h
    rcases Nat.lt_trichotomy j a with hj | rfl | hj
    · have hread : Memory.read m j = false := Memory.read_of_wfAbove habove hj.le
      simp [Memory.write_below hj, hread, hj.ne']
    · simp [Memory.write_at]
    · simp [Memory.write_above hj, ih (Memory.wf_of_wfAbove habove), hj.ne, Nat.add_right_comm]

/-- Setting a sequence of indices lists one entry more for each distinct index that was clear. -/
theorem Memory.length_setAll {m : Memory} (h : Memory.wf m = true) (js : List Nat) :
    (Memory.setAll m js).length = m.length + (clearIndices m js).card := by
  induction js generalizing m with
  | nil => rfl
  | cons j js ih =>
    rw [Memory.setAll_cons, ih (Memory.wf_write h j true), Memory.length_write_true h,
      clearIndices_write]
    cases hj : Memory.read m j with
    | true =>
      have hnot : j ∉ clearIndices m (j :: js) := by simp [mem_clearIndices, hj]
      rw [Finset.erase_eq_of_notMem hnot]
      rfl
    | false =>
      have hmem : j ∈ clearIndices m (j :: js) := by simp [mem_clearIndices, hj]
      have hcard := Finset.card_erase_add_one hmem
      simp only [Bool.false_eq_true, if_false]
      omega

/-- Settles O34: the clear indices are some of the distinct indices. -/
theorem addChangesAtMostItsDistinctIndices : Obligations.AddChangesAtMostItsDistinctIndices := by
  unfold Obligations.AddChangesAtMostItsDistinctIndices
  intro s h1 h2 hwf hready
  have hlength := Memory.length_setAll hwf (indices s.cfg h1 h2)
  refine ⟨_, exec_add_of_ready hready h1 h2, hlength, ?_, card_indices_le_K s.cfg h1 h2⟩
  exact hlength.trans_le (Nat.add_le_add_left (Finset.card_filter_le _ _) _)

/-! ### Along a run -/

theorem GoesOn.inputs_eq {xs : List Input} {o : Host.Outcome State Fault Refusal} {t : State}
    (ho : GoesOn xs o) (h : o = .next t) : t.inputs = xs := by
  obtain ⟨u, rfl, hu⟩ := ho
  cases h
  exact hu

theorem runWord_keeps_inputs {p : Port} {w : Nat} {s t : State} (h : runWord p w s = .next t) :
    t.inputs = s.inputs := by
  obtain ⟨i, -, ht⟩ := runWord_next h
  exact exec_keeps_inputs ht

/-- An edge leaves what is still to be driven. -/
theorem driveInput_keeps_inputs {x : Input} {s t : State} (h : driveInput x s = .next t) :
    t.inputs = s.inputs := by
  cases x with
  | rst => cases h; rfl
  | cmd w => exact (goesOn_commandEdge w s).inputs_eq h
  | cmdLow => exact (goesOn_commandLow s).inputs_eq h
  | rspReady => cases h; exact responseEdge_inputs s
  | rspLow => cases h; exact responseLow_inputs s
  | ba w => exact runWord_keeps_inputs h
  | ig w => exact runWord_keeps_inputs h

/-- A step consumes its input. -/
theorem step_inputs {s t : State} (h : step s = .next t) : t.inputs = s.inputs.tail := by
  obtain ⟨-, ht⟩ | ⟨-, hi, ht⟩ | ⟨-, x, xs, hi, ht⟩ := step_cases h
  · nomatch ht
  · cases ht
    rw [hi, List.tail_nil]
  · rw [driveInput_keeps_inputs ht.symm, hi, State.setInputs_inputs, List.tail_cons]

theorem reaches_keeps_cfg {n : Nat} {s u : State} (h : Reaches n s u) : u.cfg = s.cfg :=
  run_keeps (P := fun t => t.cfg = s.cfg) (Q := fun _ => True) (fun _ _ => step_inputs)
    (fun _ _ hcfg _ hst => (step_keeps_cfg hst).trans hcfg) rfl (fun _ _ => trivial) h

/-! ### A pair whose bits are all 1 is answered 1 until a reset (R103, R107) -/

/-- The K bits of the pair are 1, so that CHECK answers 1. -/
def Hits (h1 h2 : Half) (s : State) : Prop :=
  ∀ j ∈ indices s.cfg h1 h2, Memory.read s.bits j = true

theorem hits_iff_hitOf {h1 h2 : Half} {s : State} :
    Hits h1 h2 s ↔ hitOf s.bits (indices s.cfg h1 h2) = true :=
  (hitOf_eq_true_iff s.bits _).symm

section
variable {h1 h2 : Half} {s t : State}

theorem Hits.of_step (hs : Hits h1 h2 s) (hrst : s.inputs.head? ≠ some .rst)
    (h : step s = .next t) : Hits h1 h2 t := by
  intro j hj
  rw [step_keeps_cfg h] at hj
  exact bitsOnlyGrowBetweenResets s t h hrst j (hs j hj)

theorem Hits.of_reaches {n : Nat} (hs : Hits h1 h2 s) (hno : NoReset n s) (h : Reaches n s t) :
    Hits h1 h2 t :=
  run_keeps (Q := (· ≠ .rst)) (fun _ _ => step_inputs)
    (fun _ _ hits hQ => hits.of_step fun hrst => hQ _ hrst rfl)
    hs (fun _ hx hrst => hno (hrst ▸ hx)) h

theorem Hits.check_appends_true (hs : Hits h1 h2 s) (hready : cmdReady s = true) :
    ∃ v, exec (.check h1 h2) s = .next v ∧ v.rspq = s.rspq ++ [true] := by
  refine ⟨_, exec_check_of_ready hready h1 h2, ?_⟩
  rw [hits_iff_hitOf.mp hs]
  rfl

/-- The K indices of an ADD read 1 after it (R101). -/
theorem hits_setAll_indices (s : State) :
    Hits h1 h2 (s.seqDrives.setBits (Memory.setAll s.bits (indices s.cfg h1 h2))) := by
  intro j (hj : j ∈ indices s.cfg h1 h2)
  rw [State.setBits_bits, Memory.read_setAll, decide_eq_true hj, Bool.or_true]

/-- A CHECK that appended 1 has left the bits it found 1. -/
theorem hits_of_check_appended_true (h : exec (.check h1 h2) s = .next t)
    (happ : t.rspq = s.rspq ++ [true]) : Hits h1 h2 t := by
  obtain rfl | rfl := exec_check_cases h
  · exact absurd happ (by simp)
  · have hhit : hitOf s.bits (indices s.cfg h1 h2) = true :=
      List.singleton_inj.mp (List.append_cancel_left happ)
    exact hits_iff_hitOf.mpr hhit

end

/-- Settles O28: ADD sets the bits of the pair, and no step but a reset clears one. -/
theorem noFalseNegatives : Obligations.NoFalseNegatives := by
  unfold Obligations.NoFalseNegatives
  intro s h1 h2 hready
  exact ⟨_, exec_add_of_ready hready h1 h2, fun n u hno hrun =>
    ((hits_setAll_indices s).of_reaches hno hrun).check_appends_true⟩

/-- Settles O29: the CHECK found the bits of the pair 1, and no step but a reset clears one. -/
theorem aHitStaysAHitUntilReset : Obligations.AHitStaysAHitUntilReset := by
  unfold Obligations.AHitStaysAHitUntilReset
  intro s t h1 h2 _ hcheck happ n u hno hrun
  exact ((hits_of_check_appended_true hcheck happ).of_reaches hno hrun).check_appends_true

/-! ### An empty filter stays empty until an ADD or a BSET (R104) -/

/-- An operation leaves the bits, or is an ADD or a BSET (R25). -/
theorem exec_bits {i : Instr} {s t : State} (h : exec i s = .next t) :
    t.bits = s.bits ∨ (∃ h1 h2, i = .add h1 h2) ∨ ∃ j, i = .bset j := by
  cases execEffect_of_exec h with
  | add => exact .inr (.inl ⟨_, _, rfl⟩)
  | bset => exact .inr (.inr ⟨_, rfl⟩)
  | outOfRange => exact .inl (raiseIndexRange_bits _ _)
  | _ => exact .inl rfl

/-- ADD is decoded from the command port alone, and from op code 0 alone (R63, R68). -/
theorem decode_add {c : Cfg} {p : Port} {w : Nat} {h1 h2 : Half}
    (h : decode c p w = .ok (.add h1 h2)) : p = .cmd ∧ w % 4 = 0 := by
  obtain ⟨hp, hi⟩ | ⟨-, hi⟩ | ⟨-, hi⟩ := decode_cases h
  · unfold decodeCmd at hi
    split_ifs at hi with h0
    exact ⟨hp, by simpa [field] using h0⟩
  · unfold decodeBa at hi
    split_ifs at hi
  · nomatch hi

/-- BSET is decoded from the BA port alone, and from ba_op 1 alone (R65, R68). -/
theorem decode_bset {c : Cfg} {p : Port} {w j : Nat} (h : decode c p w = .ok (.bset j)) :
    p = .ba ∧ w % 2 = 1 := by
  obtain ⟨-, hi⟩ | ⟨hp, hi⟩ | ⟨-, hi⟩ := decode_cases h
  · unfold decodeCmd at hi
    split_ifs at hi
  · unfold decodeBa at hi
    split_ifs at hi with h0
    exact ⟨hp, by simpa [field] using h0⟩
  · nomatch hi

/-- A word that is no ADD and no BSET decodes to an operation that leaves the bits. -/
theorem exec_keeps_bits_of_not_setsBits {c : Cfg} {p : Port} {w : Nat} {i : Instr} {s t : State}
    (hw : (inputOf p w).setsBits = false) (hi : decode c p w = .ok i) (h : exec i s = .next t) :
    t.bits = s.bits := by
  obtain hbits | ⟨h1, h2, rfl⟩ | ⟨j, rfl⟩ := exec_bits h
  · exact hbits
  · obtain ⟨rfl, hop⟩ := decode_add hi
    simp [inputOf, Input.setsBits, hop] at hw
  · obtain ⟨rfl, hop⟩ := decode_bset hi
    simp [inputOf, Input.setsBits, hop] at hw

@[simp] theorem raiseIndexRange_heldWords (j : Nat) (s : State) :
    (raiseIndexRange j s).heldWords = s.heldWords := by
  obtain ⟨-, -, -, -, -, -, -, -, hheld, -, -⟩ := raiseIndexRange_spec j s
  exact hheld

theorem exec_keeps_heldWords {i : Instr} {s t : State} (h : exec i s = .next t) :
    t.heldWords = s.heldWords := by
  cases execEffect_of_exec h with
  | outOfRange => exact raiseIndexRange_heldWords _ _
  | _ => rfl

theorem runWord_keeps_heldWords {p : Port} {w : Nat} {s t : State}
    (h : runWord p w s = .next t) : t.heldWords = s.heldWords := by
  obtain ⟨i, -, ht⟩ := runWord_next h
  exact exec_keeps_heldWords ht

/-- A word held after an edge was held before, or is the word at the edge (R145). -/
theorem mem_heldWords_of_driveInput {x : Input} {s t : State} (h : driveInput x s = .next t)
    {v : CmdWord} (hv : v ∈ t.heldWords) : v ∈ s.heldWords ∨ x = .cmd v := by
  cases x with
  | rst => cases h; cases hv
  | cmd w =>
    obtain ⟨-, -, ht⟩ | ⟨-, -, ht⟩ | ⟨-, ht⟩ := commandEdge_cases h
    · rw [runWord_keeps_heldWords ht.symm] at hv
      cases hv
    · rw [runWord_keeps_heldWords ht.symm] at hv
      cases hv
    · cases ht
      exact (mem_presented.mp hv).imp_right fun e => congrArg Input.cmd e.symm
  | cmdLow =>
    obtain ⟨-, ht⟩ | ⟨-, -, ht | ⟨w, -, ht⟩⟩ := commandLow_cases h
    · cases ht
      exact .inl hv
    · cases ht
      cases hv
    · rw [runWord_keeps_heldWords ht.symm] at hv
      cases hv
  | rspReady =>
    cases h
    obtain ⟨-, ht⟩ | ⟨-, ht⟩ := responseEdge_cases s <;> exact .inl (by rwa [ht] at hv)
  | rspLow =>
    cases h
    obtain ⟨-, ht⟩ | ⟨-, -, ht | ht⟩ := responseLow_cases s <;> exact .inl (by rwa [ht] at hv)
  | ba w => exact .inl (runWord_keeps_heldWords h ▸ hv)
  | ig w => exact .inl (runWord_keeps_heldWords h ▸ hv)

theorem mem_heldWords_of_step {s t : State} (h : step s = .next t) {v : CmdWord}
    (hv : v ∈ t.heldWords) : v ∈ s.heldWords ∨ s.inputs.head? = some (.cmd v) := by
  obtain ⟨-, ht⟩ | ⟨-, -, ht⟩ | ⟨-, x, xs, hi, ht⟩ := step_cases h
  · nomatch ht
  · cases ht
    exact .inl hv
  · exact (mem_heldWords_of_driveInput ht.symm hv).imp_right fun e => by rw [hi, e, List.head?_cons]

theorem Empty.of_bits_eq {s t : State} (hs : Empty s) (h : t.bits = s.bits) : Empty t :=
  fun j => h ▸ hs j

theorem empty_applyReset (s : State) : Empty (applyReset s) := fun _ => rfl

/-- No bit is set, and no word is held that would set one once it is accepted. -/
structure NothingAdded (s : State) : Prop where
  empty : Empty s
  held : ∀ v ∈ s.heldWords, (Input.cmd v).setsBits = false

section
variable {s t : State} (hs : NothingAdded s)
  (hin : ∀ x, s.inputs.head? = some x → x.setsBits = false)
include hs hin

/-- A command word that the step could accept sets no bit: it is at the edge or held. -/
theorem NothingAdded.not_setsBits_of_couldAccept {v : CmdWord} (hv : CouldAccept s v) :
    (Input.cmd v).setsBits = false := by
  obtain ⟨w, hw, rfl | hheld⟩ | ⟨-, hheld⟩ := hv
  · exact hin _ hw
  · exact hs.held v hheld
  · exact hs.held v hheld

theorem NothingAdded.empty_of_step (h : step s = .next t) : Empty t := by
  obtain ⟨-, heff⟩ := stepEffect_of_step h
  cases heff with
  | kept h => exact hs.empty.of_bits_eq (State.bits_of_block h)
  | @command v _ _ hv _ hi hu ht =>
    have hset : (inputOf .cmd v.toNat).setsBits = false := by
      rw [inputOf, BitVec.ofNat_toNat, BitVec.setWidth_eq]
      exact hs.not_setsBits_of_couldAccept hin hv
    have hbits := exec_keeps_bits_of_not_setsBits hset hi ht
    exact hs.empty.of_bits_eq (hbits.trans (State.bits_of_block hu))
  | part _ hw hi hu ht =>
    have hbits := exec_keeps_bits_of_not_setsBits (hin _ hw) hi ht
    exact hs.empty.of_bits_eq (hbits.trans (State.bits_of_block hu))
  | taken _ _ h => exact hs.empty.of_bits_eq ((State.bits_of_block h).trans (takeResponse_bits s))
  | reset _ h => exact (empty_applyReset s).of_bits_eq (State.bits_of_block h)

theorem NothingAdded.of_step (h : step s = .next t) : NothingAdded t where
  empty := hs.empty_of_step hin h
  held v hv := (mem_heldWords_of_step h hv).elim (hs.held v) (hin _)

end

/-- Settles O31: a run that presents nothing that sets a bit keeps the filter empty, and a legal block tests at least one
bit. -/
theorem emptyFilterAnswersZero : Obligations.EmptyFilterAnswersZero := by
  unfold Obligations.EmptyFilterAnswersZero
  refine ⟨empty_applyReset, fun s u n h1 h2 hlegal hempty hheld hin hrun hready => ?_⟩
  obtain ⟨-, -, hK⟩ := hlegal
  have hu : NothingAdded u := run_keeps (Q := fun x => x.setsBits = false)
    (fun _ _ => step_inputs) (fun _ _ => NothingAdded.of_step) ⟨hempty, hheld⟩ hin hrun
  have hmiss : hitOf u.bits (indices u.cfg h1 h2) = false :=
    hitOf_eq_false_of_empty hu.empty (mod_mem_indices (reaches_keeps_cfg hrun ▸ hK) h1 h2)
  refine ⟨_, exec_check_of_ready hready h1 h2, ?_⟩
  rw [hmiss]
  rfl

end Sys2Proof.Machine

/-! Family 60_exceptions: what a step can do to the fault fields (R120 to R125), and the steps that do nothing: with nothing
presented (R137), with a command turned away (R124, R147), or refused (R126). -/

namespace Sys2Proof.Machine

/-! ### The operations that raise a fault (R121, R122) -/

/-- `t` has the fault fields of `s` (R27). -/
structure SameFault (s t : State) : Prop where
  fault : t.fault = s.fault
  cause : t.faultCause = s.faultCause
  info : t.faultInfo = s.faultInfo

theorem SameFault.of_block {s t : State} (h : t.block = s.block) : SameFault s t :=
  ⟨(congrArg State.fault h :), (congrArg State.faultCause h :), (congrArg State.faultInfo h :)⟩

theorem SameFault.trans {s u t : State} (h : SameFault s u) (h' : SameFault u t) : SameFault s t :=
  ⟨h'.fault.trans h.fault, h'.cause.trans h.cause, h'.info.trans h.info⟩

/-- A ready port is one outside the fault state (R124). -/
theorem fault_of_ready {s : State} (h : cmdReady s = true) : s.fault = false := by
  obtain ⟨hfault, -⟩ := (cmdReady_iff s).mp h
  exact hfault

/-- An operation leaves the fault fields, or raises one of the two faults outside the fault state (R120, R124). -/
theorem exec_fault_cases {i : Instr} {s t : State} (h : exec i s = .next t) :
    SameFault s t ∨
    (∃ op h1 h2, i = .reserved op h1 h2 ∧ s.fault = false ∧ t = raiseIllegalOp op.code s) ∨
    (∃ j, (i = .bset j ∨ i = .btest j) ∧ s.fault = false ∧ s.cfg.M ≤ j ∧
      t = raiseIndexRange j (s.setRdata none)) := by
  cases execEffect_of_exec h with
  | reserved hready => exact .inr (.inl ⟨_, _, _, rfl, fault_of_ready hready, rfl⟩)
  | outOfRange hi hfault hj => exact .inr (.inr ⟨_, hi, hfault, hj, rfl⟩)
  | _ => exact .inl ⟨rfl, rfl, rfl⟩

/-- A reserved command is decoded from the command port alone, and from its own op code alone (R63, R68). -/
theorem decode_reserved {c : Cfg} {p : Port} {w : Nat} {op : ReservedOp} {h1 h2 : Half}
    (h : decode c p w = .ok (.reserved op h1 h2)) : p = .cmd ∧ w % 4 = op.code.toNat := by
  obtain ⟨hp, hw, -⟩ := encodeOfDecodeIsTheWord c p w _ h
  exact ⟨hp.symm, hw ▸ Laws.EncodedRow.cmdWordOf_mod op.code.isLt h1 h2⟩

/-- BSET and BTEST are decoded from the BA port alone, and the index is what stands above ba_op (R65, R68). -/
theorem decode_bitOperation {c : Cfg} {p : Port} {w j : Nat} {i : Instr}
    (hi : i = .bset j ∨ i = .btest j) (h : decode c p w = .ok i) : p = .ba ∧ w / 2 = j := by
  obtain ⟨hp, hw, -⟩ := encodeOfDecodeIsTheWord c p w i h
  obtain rfl | rfl := hi <;> rw [encode] at hw <;> exact ⟨hp.symm, by omega⟩

/-! ### What a step can do to the fault fields -/

/-- What a step does to the fault fields, and what was driven for it to do so. -/
inductive FaultEffect (s t : State) : Prop where
  | kept (h : SameFault s t)
  /-- a reserved command is accepted (R122) -/
  | illegalOp {v : CmdWord} {op : ReservedOp} (hfault : s.fault = false) (hv : CouldAccept s v)
      (hop : v.toNat % 4 = op.code.toNat) (hcause : t.faultCause = causeIllegalOp)
      (hinfo : t.faultInfo = zext64Op op.code)
  /-- a BA word with an index outside the array is driven (R121) -/
  | indexRange {w : Nat} (hfault : s.fault = false) (hin : s.inputs.head? = some (.ba w))
      (hM : s.cfg.M ≤ w / 2) (hcause : t.faultCause = causeIndexRange)
      (hinfo : w / 2 < 2 ^ 64 → t.faultInfo.toNat = w / 2)
  /-- the block is reset (R140) -/
  | reset (hin : s.inputs.head? = some .rst) (h : SameFault (applyReset s) t)

/-- Of the operations of the command port only a reserved command touches the fault fields. -/
theorem faultEffect_of_command {v : CmdWord} {i : Instr} {s u t : State} (hv : CouldAccept s v)
    (hi : decode s.cfg .cmd v.toNat = .ok i) (hu : u.block = s.block) (ht : exec i u = .next t) :
    FaultEffect s t := by
  have hsame := SameFault.of_block hu
  obtain hkept | ⟨op, h1, h2, rfl, hfault, rfl⟩ | ⟨j, hij, -⟩ := exec_fault_cases ht
  · exact .kept (hsame.trans hkept)
  · exact .illegalOp (hsame.fault ▸ hfault) hv (decode_reserved hi).2 rfl rfl
  · nomatch (decode_bitOperation hij hi).1

/-- Of the operations of the parts only one outside the array touches the fault fields. -/
theorem faultEffect_of_part {p : Port} {w : Nat} {i : Instr} {s u t : State} (hp : p ≠ .cmd)
    (hin : s.inputs.head? = some (inputOf p w)) (hi : decode s.cfg p w = .ok i)
    (hu : u.block = s.block) (ht : exec i u = .next t) : FaultEffect s t := by
  have hsame := SameFault.of_block hu
  obtain hkept | ⟨op, h1, h2, rfl, -⟩ | ⟨j, hij, hfault, hj, rfl⟩ := exec_fault_cases ht
  · exact .kept (hsame.trans hkept)
  · exact absurd (decode_reserved hi).1 hp
  · obtain ⟨rfl, rfl⟩ := decode_bitOperation hij hi
    obtain ⟨-, hcause, hinfo, -⟩ := raiseIndexRange_spec (w / 2) (u.setRdata none)
    exact .indexRange (hsame.fault ▸ hfault) hin (State.cfg_of_block hu ▸ hj) hcause
      fun hw => (hinfo hw).1

theorem faultEffect_of_step {s t : State} (h : step s = .next t) : FaultEffect s t := by
  obtain ⟨-, heff⟩ := stepEffect_of_step h
  cases heff with
  | kept h => exact .kept (.of_block h)
  | command hv _ hi hu ht => exact faultEffect_of_command hv hi hu ht
  | part hp hin hi hu ht => exact faultEffect_of_part hp hin hi hu ht
  | taken _ _ h => exact .kept (.trans (u := takeResponse s) ⟨rfl, rfl, rfl⟩ (.of_block h))
  | reset hin h => exact .reset hin (.of_block h)

/-! ### Where the two faults come from (R120, R121, R122) -/

/-- A step with nothing driven on the BA port does not bring in the cause INDEX_RANGE. -/
theorem cause_ne_indexRange_of_step {s t : State} (hs : s.faultCause ≠ causeIndexRange)
    (hin : ∀ x, s.inputs.head? = some x → x.isBa = false) (h : step s = .next t) :
    t.faultCause ≠ causeIndexRange := by
  cases faultEffect_of_step h with
  | kept h => rwa [h.cause]
  | illegalOp _ _ _ hcause _ =>
    rw [hcause]
    decide
  | indexRange _ hba _ _ _ => nomatch hin _ hba
  | reset _ h =>
    rw [h.cause, applyReset_faultCause]
    decide

/-- Settles O48: by induction on the run; only a word on the BA port raises INDEX_RANGE. -/
theorem hostCommandsNeverRaiseIndexRange : Obligations.HostCommandsNeverRaiseIndexRange := by
  unfold Obligations.HostCommandsNeverRaiseIndexRange
  intro s u n hs hin hrun
  exact run_keeps (Q := fun x => x.isBa = false) (fun _ _ => step_inputs)
    (fun _ _ => cause_ne_indexRange_of_step) hs hin hrun

/-- The op code of a reserved command is 2 or 3 (R63). -/
theorem two_le_code (op : ReservedOp) : 2 ≤ op.code.toNat := by
  cases op <;> decide

/-- Settles O47: by what a step can do to the fault fields; a reset clears the fault. -/
theorem onlyTwoFaultsExist : Obligations.OnlyTwoFaultsExist := by
  unfold Obligations.OnlyTwoFaultsExist
  intro s t h hs ht
  cases faultEffect_of_step h with
  | kept h => simp [h.fault, hs] at ht
  | @illegalOp v op _ hv hop hcause hinfo =>
    refine .inl ⟨v, hv, hop ▸ two_le_code op, hcause, ?_⟩
    rw [hinfo, zext64Op_toNat, hop]
  | @indexRange w _ hin hM hcause hinfo =>
    obtain ⟨rest, hin⟩ := List.head?_eq_some_iff.mp hin
    exact .inr ⟨w, rest, hin, hM, hcause, hinfo⟩
  | reset _ h => simp [h.fault] at ht

/-! ### A command turned away (R124, R147) -/

/-- Settles O24: the port is not ready, so no command takes its effect. -/
theorem commandTurnedAwayChangesNothing : Obligations.CommandTurnedAwayChangesNothing := by
  unfold Obligations.CommandTurnedAwayChangesNothing
  intro s h1 h2 op hnot
  have hready : cmdReady s = false := (cmdReady_eq_false_iff s).mpr hnot
  rw [exec_add, exec_check, exec_reserved]
  exact ⟨accepted_of_not_ready hready, accepted_of_not_ready hready, accepted_of_not_ready hready⟩

/-! ### The fault state (R124, R125) -/

/-- No operation writes a bit in the fault state: ADD is not accepted, and BSET is not performed. -/
theorem exec_keeps_bits_of_fault {i : Instr} {s t : State} (hf : s.fault = true)
    (h : exec i s = .next t) : t.bits = s.bits := by
  obtain hbits | ⟨h1, h2, rfl⟩ | ⟨j, rfl⟩ := exec_bits h
  · exact hbits
  · rw [exec_add, accepted_of_not_ready ((cmdReady_eq_false_iff s).mpr (.inl hf))] at h
    cases h
    rfl
  · rw [exec_bset_faulted hf] at h
    cases h
    rfl

theorem step_keeps_bits_of_fault {s t : State} (hf : s.fault = true)
    (hrst : s.inputs.head? ≠ some .rst) (h : step s = .next t) : t.bits = s.bits := by
  obtain ⟨-, heff⟩ := stepEffect_of_step h
  cases heff with
  | kept h => exact State.bits_of_block h
  | command _ hready => simp [fault_of_ready hready] at hf
  | part _ _ _ hu ht =>
    have hfault := (SameFault.of_block hu).fault.trans hf
    exact (exec_keeps_bits_of_fault hfault ht).trans (State.bits_of_block hu)
  | taken _ _ h => exact (State.bits_of_block h).trans (takeResponse_bits s)
  | reset hin _ => exact absurd hin hrst

theorem step_sameFault_of_fault {s t : State} (hf : s.fault = true)
    (hrst : s.inputs.head? ≠ some .rst) (h : step s = .next t) : SameFault s t := by
  cases faultEffect_of_step h with
  | kept h => exact h
  | illegalOp hfault => simp [hfault] at hf
  | indexRange hfault => simp [hfault] at hf
  | reset hin _ => exact absurd hin hrst

/-- Settles O26: both faults are raised, and bits written and responses appended, outside the fault state alone. -/
theorem onlyResetLeavesTheFaultState : Obligations.OnlyResetLeavesTheFaultState := by
  unfold Obligations.OnlyResetLeavesTheFaultState
  intro s t h hf hrst
  have hsame := step_sameFault_of_fault hf hrst h
  refine ⟨hsame.fault.trans hf, hsame.cause, hsame.info, step_keeps_bits_of_fault hf hrst h, ?_⟩
  obtain hq | ⟨-, hfault, -⟩ | htaken | ⟨hin, -⟩ := responsesChangeOnlyByCheckTakeOrReset s t h
  · exact .inl hq
  · simp [hfault] at hf
  · exact .inr htaken
  · exact absurd hin hrst

/-! ### An index of more than 64 bits (R8, R121) -/

/-- Settles O20: INDEX_RANGE is raised whatever the width of the index, which decides on the info alone. -/
theorem wideIndexFaultsWithOpenInfo : Obligations.WideIndexFaultsWithOpenInfo := by
  unfold Obligations.WideIndexFaultsWithOpenInfo
  intro s j i hi hf hj _
  obtain ⟨hfault, hcause, -, hcfg, hbits, hrspq, -⟩ := raiseIndexRange_spec j (s.setRdata none)
  obtain rfl | rfl := hi
  · exact ⟨_, exec_bset_out_of_range hf hj, hfault, hcause, hbits, hrspq, hcfg⟩
  · exact ⟨_, exec_btest_out_of_range hf hj, hfault, hcause, hbits, hrspq, hcfg⟩

/-! ### A step that does nothing, or is refused (R126, R137) -/

/-- Settles O12: it is one of the things a step can do. -/
theorem withNoInputAllStateIsKept : Obligations.WithNoInputAllStateIsKept :=
  fun _ => step_of_no_input

/-- Settles O13: M, K and M_MAX are as R7 asks in every configuration of which a block exists. -/
theorem illegalConfigurationIsRefused : Obligations.IllegalConfigurationIsRefused := by
  unfold Obligations.IllegalConfigurationIsRefused
  intro s hbad
  refine step_of_not_buildable fun ⟨⟨hM, hmax, hK⟩, _⟩ => ?_
  omega

end Sys2Proof.Machine

/-! Family 70_reset_and_hazards: a command edge of a host that changed its word early, and of one stalled by a full response
queue (R145, R147), and what a reset drops (R140). -/

namespace Sys2Proof.Machine

/-! ### A host that changed its command early (R145) -/

/-- A ready port of a host that presented several words carries out one of them, on a state that holds none. -/
theorem commandEdge_of_changed {w v : CmdWord} {s : State} (hready : cmdReady s = true)
    (hv : v ∈ s.heldWords) (hne : v ≠ w) :
    ∃ v', (v' = w ∨ v' ∈ s.heldWords) ∧
      commandEdge w s = runWord .cmd v'.toNat (s.setHeld []).advanceDraws := by
  obtain ⟨-, hsteady, -⟩ | ⟨-, -, ho⟩ | ⟨hnot, -⟩ := commandEdge_cases (w := w) (s := s) rfl
  · exact absurd (hsteady v hv) hne
  · have hsome : presented s.heldWords w ≠ [] := List.ne_nil_of_mem (mem_presented.mpr (.inr rfl))
    exact ⟨_, (mem_presented.mp (drawnFrom_mem hsome w s.draws)).symm, ho⟩
  · simp [hready] at hnot

/-- Settles O8: the word drawn is one of those presented, and it has 130 bits, so it decodes. -/
theorem acceptedWordIsOneOfThosePresented : Obligations.AcceptedWordIsOneOfThosePresented := by
  unfold Obligations.AcceptedWordIsOneOfThosePresented
  rintro s w rest hb hin hready ⟨v, hv, hne⟩
  obtain ⟨v', hv', hedge⟩ := commandEdge_of_changed (s := s.setInputs rest) hready hv hne
  have hi := decode_cmd s.cfg v'
  refine ⟨v', _, hv', hi, ?_⟩
  calc step s
    _ = commandEdge w (s.setInputs rest) := step_of_input hb hin
    _ = runWord .cmd v'.toNat ((s.setInputs rest).setHeld []).advanceDraws := hedge
    _ = exec (decodeCmd v'.toNat) ((s.setInputs rest).setHeld []).advanceDraws :=
      runWord_of_decode hi

/-! ### A full response queue (R145, R147) -/

theorem presented_nil (w : CmdWord) : presented [] w = [w] := by
  simp [presented]

theorem responseEdge_of_queued {s : State} (h : s.rspq ≠ []) :
    responseEdge s = (takeResponse s).setHeldReady false := by
  obtain ⟨hempty, -⟩ | ⟨-, ht⟩ := responseEdge_cases s
  · exact absurd hempty h
  · exact ht

/-- Taking a response makes room for one outside the fault state. -/
theorem cmdReady_takeResponse {s : State} (hf : s.fault = false) (hq : s.rspq ≠ [])
    (hle : s.rspq.length ≤ s.cfg.rspqDepth) : cmdReady (takeResponse s) = true := by
  have hpos : 0 < s.rspq.length := List.length_pos_iff.mpr hq
  refine (cmdReady_iff _).mpr ⟨hf, ?_⟩
  rw [takeResponse_rspq, takeResponse_cfg, List.length_tail]
  omega

/-- The state while the command `w` is stalled: `w` is held, and `xs` is still to be driven. -/
def stalled (s : State) (w : CmdWord) (xs : List Input) : State := (s.setHeld [w]).setInputs xs

/-- The state after the stall: the oldest response has been taken. -/
def afterStall (s : State) (w : CmdWord) (xs : List Input) : State :=
  (takeResponse (stalled s w xs)).setHeldReady false

/-- A command met by a full queue is held. -/
theorem step_of_full {s : State} {w : CmdWord} {xs : List Input} (hb : s.cfg.Buildable)
    (hfull : s.cfg.rspqDepth ≤ s.rspq.length) (hheld : s.heldWords = [])
    (hin : s.inputs = .cmd w :: xs) : step s = .next (stalled s w xs) := by
  have hnot : cmdReady (s.setInputs xs) = false := (cmdReady_eq_false_iff _).mpr (.inr hfull)
  calc step s
    _ = commandEdge w (s.setInputs xs) := step_of_input hb hin
    _ = .next ((s.setInputs xs).setHeld (presented s.heldWords w)) :=
      commandEdge_of_not_ready hnot w
    _ = .next (stalled s w xs) := by rw [hheld, presented_nil]; rfl

/-- The edge with `rsp_ready = 1` after it takes the oldest response and ends the stall. -/
theorem step_of_stalled {s : State} (hb : s.cfg.Buildable) (hq : s.rspq ≠ []) (w : CmdWord)
    (xs : List Input) : step (stalled s w (.rspReady :: xs)) = .next (afterStall s w xs) :=
  calc step (stalled s w (.rspReady :: xs))
    _ = .next (responseEdge (stalled s w xs)) :=
      step_of_input (s := stalled s w (.rspReady :: xs)) hb rfl
    _ = .next (afterStall s w xs) := congrArg _ (responseEdge_of_queued hq)

/-- Settles O49: the taken response makes the port ready, and the word at the third edge is the one held. -/
theorem fullQueueStallsUntilAResponseIsTaken :
    Obligations.FullQueueStallsUntilAResponseIsTaken := by
  unfold Obligations.FullQueueStallsUntilAResponseIsTaken
  intro s w rest hb hf hlen hheld hin
  have hq : s.rspq ≠ [] := List.length_pos_iff.mp (hlen ▸ hb.2)
  have hready : cmdReady (afterStall s w (.cmd w :: rest)) = true :=
    cmdReady_takeResponse (s := stalled s w (.cmd w :: rest)) hf hq hlen.le
  obtain ⟨i, hi, hstep⟩ := stepRunsThePresentedCommand (afterStall s w (.cmd w :: rest)) w rest
    hb rfl hready fun _ => List.mem_singleton.mp
  have hreach : Reaches 2 s (afterStall s w (.cmd w :: rest)) :=
    reaches_succ.mpr ⟨_, step_of_full hb hlen.ge hheld hin,
      reaches_succ.mpr ⟨_, step_of_stalled hb hq w _, reaches_zero.mpr rfl⟩⟩
  exact ⟨_, i, hreach, rfl, rfl, hready, rfl, hi, hstep⟩

/-! ### Reset (R140) -/

/-- Settles O10: the step is `applyReset` on the state with that input consumed. -/
theorem resetDropsHeldWordsAndKeepsLaterInputs :
    Obligations.ResetDropsHeldWordsAndKeepsLaterInputs := by
  unfold Obligations.ResetDropsHeldWordsAndKeepsLaterInputs
  intro s rest hb hin
  exact ⟨applyReset (s.setInputs rest), step_of_input hb hin, applyReset_heldWords _,
    applyReset_heldReady _, applyReset_baRdata _, applyReset_igIndex _, applyReset_inputs _,
    applyReset_draws _⟩

end Sys2Proof.Machine
